-- ==== Sys2Proof/Word.lean ====
section
/-! DEFINITION. The machine's one word type and the register index type (00_scope.md R7, R14). -/

namespace Sys2Proof

/-- Every register, memory cell, flag byte, program counter and instruction byte: 8 bits, bit 0 least
significant (R14). -/
abbrev Byte := BitVec 8

/-- A register index that the register file has: 0 to 7 (R21). -/
abbrev RegIx := Fin 8

end Sys2Proof
end

