-- ==== Sys2Proof/Syntax.lean ====
section
/-! DEFINITION. The instruction set: one constructor per row of spec/opcode_table.json (30_encoding.md R66). -/

namespace Sys2Proof

/-- The eleven instructions (R66), in the order of the source's opcode table. A register operand is the WHOLE
operand byte as it stands in memory (R64): a byte above 7 names no register and is ill-formed
(`wellFormed`), and executing it raises `InvalidRegister` (R83). -/
inductive Instr where
  /-- HLT: halt (R100). -/
  | hlt
  /-- LDI r,imm8: load immediate (R101). -/
  | ldi (r imm : Byte)
  /-- PRN r: hand a register's value to the printer (R102). -/
  | prn (r : Byte)
  /-- PUSH r: push a register (R113). -/
  | push (r : Byte)
  /-- POP r: pop into a register (R114). -/
  | pop (r : Byte)
  /-- CALL r: push the return address and jump to a register's value (R120). -/
  | call (r : Byte)
  /-- RET: pop the program counter (R121). -/
  | ret
  /-- CMP ra,rb: compare two registers (R132). -/
  | cmp (ra rb : Byte)
  /-- JMP r: jump to a register's value (R141). -/
  | jmp (r : Byte)
  /-- JEQ r: jump if equal (R142). -/
  | jeq (r : Byte)
  /-- JNE r: jump if not equal (R143). -/
  | jne (r : Byte)
  deriving DecidableEq, Repr

end Sys2Proof
end

