-- ==== Sys2Proof/WellFormed.lean ====
section
/-! DEFINITION. Which instructions are well formed: every register operand byte is 0 to 7 (30_encoding.md R61, R64). -/

namespace Sys2Proof

/-- The byte names a register of the file (R64: the index is the byte's unsigned value, 0 to 7). -/
def namesRegister (x : Byte) : Bool := decide (x.toNat < 8)

/-- Every operand byte that the format makes a register index names a register (R61). LDI's immediate is any
byte (R65). -/
def wellFormed : Instr → Bool
  | .hlt => true
  | .ldi r _ => namesRegister r
  | .prn r => namesRegister r
  | .push r => namesRegister r
  | .pop r => namesRegister r
  | .call r => namesRegister r
  | .ret => true
  | .cmp ra rb => namesRegister ra && namesRegister rb
  | .jmp r => namesRegister r
  | .jeq r => namesRegister r
  | .jne r => namesRegister r

end Sys2Proof
end

