-- ==== Sys2Proof/Decode.lean ====
section
/-! DEFINITION. The opcode bytes, the decoder and the encoder (30_encoding.md R60 to R70; 40_engine.md R82). -/

namespace Sys2Proof

/-! ### The opcode map (R66). HLT, LDI and PRN are the source's; the other eight are PRESUMED: the spec's decision
D1, the family's values; assumption 1. -/

/-- HLT's opcode byte (R66). -/
def opcHlt : Byte := 0x01
/-- LDI's opcode byte (R66). -/
def opcLdi : Byte := 0x82
/-- PRN's opcode byte (R66). -/
def opcPrn : Byte := 0x47
/-- PUSH's opcode byte (R66, D1). -/
def opcPush : Byte := 0x45
/-- POP's opcode byte (R66, D1). -/
def opcPop : Byte := 0x46
/-- CALL's opcode byte (R66, D1). -/
def opcCall : Byte := 0x50
/-- RET's opcode byte (R66, D1). -/
def opcRet : Byte := 0x11
/-- CMP's opcode byte (R66, D1). -/
def opcCmp : Byte := 0xA7
/-- JMP's opcode byte (R66, D1). -/
def opcJmp : Byte := 0x54
/-- JEQ's opcode byte (R66, D1). -/
def opcJeq : Byte := 0x55
/-- JNE's opcode byte (R66, D1). -/
def opcJne : Byte := 0x56

/-- The eleven opcode bytes, in the table's order (R66). -/
def opcodeBytes : List Byte :=
  [opcHlt, opcLdi, opcPrn, opcPush, opcPop, opcCall, opcRet, opcCmp, opcJmp, opcJeq, opcJne]

/-- Why bytes are no instruction. -/
inductive DecodeError where
  /-- The opcode byte is not one of the eleven (R67). -/
  | unsupportedOpcode (opc : Byte)
  /-- Fewer than the three bytes that every fetch reads were offered (R81). -/
  | fewerThanThreeBytes
  deriving DecidableEq, Repr

/-- The fixed mapping from opcode byte to instruction, on the three bytes a fetch reads: a match on the whole opcode
byte (R69, R82). Operand bytes never take part in the selection; bytes beyond the instruction's length are ignored
(R68); an operand byte above 7 is not masked and not refused here (R64): the operand check of R83 comes after. -/
def decode (opc a b : Byte) : Except DecodeError Instr :=
  if opc = opcHlt then .ok .hlt
  else if opc = opcLdi then .ok (.ldi a b)
  else if opc = opcPrn then .ok (.prn a)
  else if opc = opcPush then .ok (.push a)
  else if opc = opcPop then .ok (.pop a)
  else if opc = opcCall then .ok (.call a)
  else if opc = opcRet then .ok .ret
  else if opc = opcCmp then .ok (.cmp a b)
  else if opc = opcJmp then .ok (.jmp a)
  else if opc = opcJeq then .ok (.jeq a)
  else if opc = opcJne then .ok (.jne a)
  else .error (.unsupportedOpcode opc)

/-- The decoder on a byte sequence in memory order, opcode first (R43, R60). Like the fetch unit it takes three bytes
whatever the instruction's length (R63, R81). -/
def decodeBytes : List Byte → Except DecodeError Instr
  | opc :: a :: b :: _ => decode opc a b
  | _ => .error .fewerThanThreeBytes

/-- The opcode byte of an instruction (R66). -/
def opcodeOf : Instr → Byte
  | .hlt => opcHlt
  | .ldi _ _ => opcLdi
  | .prn _ => opcPrn
  | .push _ => opcPush
  | .pop _ => opcPop
  | .call _ => opcCall
  | .ret => opcRet
  | .cmp _ _ => opcCmp
  | .jmp _ => opcJmp
  | .jeq _ => opcJeq
  | .jne _ => opcJne

/-- The instruction's bytes at ascending addresses, by its format Z, R, RI or RR (R61). -/
def encode : Instr → List Byte
  | .hlt => [opcHlt]
  | .ldi r imm => [opcLdi, r, imm]
  | .prn r => [opcPrn, r]
  | .push r => [opcPush, r]
  | .pop r => [opcPop, r]
  | .call r => [opcCall, r]
  | .ret => [opcRet]
  | .cmp ra rb => [opcCmp, ra, rb]
  | .jmp r => [opcJmp, r]
  | .jeq r => [opcJeq, r]
  | .jne r => [opcJne, r]

/-- The length in bytes that an opcode byte tells: 1 + opcode[7:6] (R63). -/
def lengthFromOpcode (opc : Byte) : Nat := 1 + (opc.extractLsb 7 6).toNat

/-- Byte `k` of an instruction word numbered as the opcode table numbers it (byte 0 lowest), bits from `nbits` up
being 0. -/
def tableByte (nbits w k : Nat) : Byte := BitVec.ofNat 8 ((w % 2 ^ nbits) / 256 ^ k)

/-- What the decoder reads from the table's word. -/
def decodeTableWord (nbits w : Nat) : Option Instr :=
  match decode (tableByte nbits w 0) (tableByte nbits w 1) (tableByte nbits w 2) with
  | .ok i => some i
  | .error _ => none

end Sys2Proof
end

