-- ==== Sys2Proof/Config.lean ====
section
/-! DEFINITION. The constants of the implementation-parameter table that State and State.reset rest on (00_scope.md R7,
10_state.md R33). The machine has no undefined value, so there is no free value here. Constants that an instruction
uses (opcode bytes, STACK_CEILING, fetch limit, fault codes) stand in Decode.lean and Machine/. -/

namespace Sys2Proof.Config

/-- MEM_SIZE: the number of byte cells, addresses 0x00 to 0xFF (R7, R40). -/
def memSize : Nat := 256

/-- SP_INDEX: the register that is the stack pointer (R22). -/
def spIndex : RegIx := 7

/-- SP_RESET (R7, R33). -/
def spReset : Byte := 0xF4

/-- GPR_RESET: R0 to R6 after reset. PRESUMED: the spec's decision D8, from the family; assumption 2. -/
def gprReset : Byte := 0x00

/-- FL_RESET: bit 0 set (R7, R33). -/
def flReset : Byte := 0x01

/-- PC_RESET: the entry point (R7, R33). -/
def pcReset : Byte := 0x00

/-- What every memory cell holds after reset until it is loaded or written: "zero-initialized at startup" (R33, R55). -/
def memReset : Byte := 0x00

/-- The default of the OPEN parameter STACK_FLOOR (R7; 92_eei_decisions.md D6). -/
def stackFloorDefault : Byte := 0x00

end Sys2Proof.Config
end

