-- ==== Sys2Proof/Machine/State.lean ====
section
/-! DEFINITION. The machine's state as plain data, its value after reset, and the reasons a step can stop
(10_state.md R20 to R35). -/

namespace Sys2Proof.Machine

/-- The 256 byte cells (R40) as (address, byte) pairs in one canonical form (`Memory.wf`). An address that is not
listed reads as `Config.memReset`, the value every cell has after reset (R33, R55). -/
abbrev Memory := List Host.Cell

/-- The canonical form from address `lo` on: addresses strictly rising and inside the address space, no entry equal to
what an unlisted address reads as. -/
def Memory.wfFrom (lo : Nat) : Memory → Bool
  | [] => true
  | (a, v) :: rest =>
    decide (lo ≤ a) && decide (a < Config.memSize) && decide (v ≠ Config.memReset) && Memory.wfFrom (a + 1) rest

/-- The memory is in canonical form, so equal memories are equal data. -/
def Memory.wf (m : Memory) : Bool := Memory.wfFrom 0 m

/-- The complete architectural state (R20), the output sequence (R10), and the platform's STACK_FLOOR (R7). -/
structure State where
  /-- M: 256 cells of 8 bits: program, data and stack (R40). -/
  mem : Memory
  /-- R0 to R7; R7 is the stack pointer (R21, R22). -/
  regs : Vector Byte 8
  /-- FL: bit 0 E, bit 1 G, bit 2 L (R28). -/
  fl : Byte
  /-- pc: the address of the opcode byte of the instruction being executed, or next to be (R25). -/
  pc : Byte
  /-- RUN: the running flag (R31). -/
  run : Bool
  /-- FAULT_CAUSE: 0, or the cause code of R151 (R32). -/
  faultCause : BitVec 3
  /-- FAULT_PC: the pc of the faulting instruction (R32). -/
  faultPc : Byte
  /-- FAULT_IR: the opcode byte fetched, 0x00 when the fault came before it was read (R32). -/
  faultIr : Byte
  /-- Out: the bytes PRN has emitted, oldest first (R10, R35). The environment's, appended to and never read;
  assumption 6. -/
  out : List Byte
  /-- STACK_FLOOR: the platform's OPEN parameter (R7, D6). The MODEL's own field: no step writes it; assumption 5. -/
  stackFloor : Byte
  deriving DecidableEq, Repr

/-- The faults the core raises (R151), with the three raising points of `OutOfBounds` told apart (R154). Taking one is
a next state (Ops.lean, `takeFault`): R158 says what it writes. -/
inductive FaultKind where
  /-- No handler for the opcode byte (R152). -/
  | unsupportedOpcode
  /-- The ALU was asked for an operation other than compare (R153). -/
  | unsupportedAluOperation
  /-- `OutOfBounds` at the fetch: pc > 0xFD (R81). -/
  | outOfBoundsFetch
  /-- `OutOfBounds` at a sequential advance past 0xFF (R87). -/
  | outOfBoundsAdvance
  /-- `OutOfBounds` at a push or a pop with SP outside its legal range (R111, R112). -/
  | outOfBoundsStack
  /-- A register operand byte above 7 (R155). -/
  | invalidRegister
  deriving DecidableEq, Repr

/-- The host's reasons to stop WITHOUT a next state. There are none: every fault of the spec is taken as its R158
describes it, which is a next state (assumption 3), and every state has a next state (R85), so nothing raises a
constructor of this type and the type has none. Safe. -/
inductive Fault where
  deriving DecidableEq, Repr

/-- The host's reasons to refuse an instruction. -/
inductive Refusal where
  /-- An instruction without a meaning in exec's arm. Nobody raises it: all eleven have their meaning. Safe. -/
  | notModelled (mnemonic : String)
  deriving DecidableEq, Repr

/-- What the meaning of an instruction, and a step, answer. -/
abbrev Result := Host.Outcome State Fault Refusal

/-- The machine right after reset, before the loader runs (R33, R180). -/
def State.reset : State where
  mem := []
  regs := #v[Config.gprReset, Config.gprReset, Config.gprReset, Config.gprReset,
             Config.gprReset, Config.gprReset, Config.gprReset, Config.spReset]
  fl := Config.flReset
  pc := Config.pcReset
  run := true
  faultCause := 0
  faultPc := 0x00
  faultIr := 0x00
  out := []
  stackFloor := Config.stackFloorDefault

end Sys2Proof.Machine
end

