-- ==== Sys2Proof/Machine/Ops.lean ====
section
/-! DEFINITION. The named operations over registers, memory, pc, RUN, output and stack; taking a fault; running a
handler; fetching (00_scope.md R16; 20_memory.md R42; 40_engine.md R80, R81, R87; 42_stack.md R111, R112;
60_exceptions.md R151, R158, R166). -/

namespace Sys2Proof.Machine

/-! ### Memory (R42) -/

/-- The byte in the cell at an address; an unlisted cell holds the reset value (R42). -/
def Memory.read : Memory → Nat → Byte
  | [], _ => Config.memReset
  | (k, w) :: rest, a => if k = a then w else Memory.read rest a

/-- The cell at an address takes a byte and no other cell changes (R42). Keeps the canonical form. -/
def Memory.write : Memory → Nat → Byte → Memory
  | [], a, v => if v = Config.memReset then [] else [(a, v)]
  | (k, w) :: rest, a, v =>
    if a < k then
      if v = Config.memReset then (k, w) :: rest else (a, v) :: (k, w) :: rest
    else if a = k then
      if v = Config.memReset then rest else (a, v) :: rest
    else (k, w) :: Memory.write rest a v

/-- MemRead(addr, 1) (R16, R42): an address is a byte, so it is always inside the space. -/
def State.memRead (s : State) (addr : Byte) : Byte := s.mem.read addr.toNat

/-- MemWrite(addr, 1, v) (R16, R42). -/
def State.memWrite (s : State) (addr v : Byte) : State := { s with mem := s.mem.write addr.toNat v }

/-! ### Registers, FL, pc, RUN, Out (R16) -/

/-- R[i] (R16). -/
def State.readReg (s : State) (i : RegIx) : Byte := s.regs[i]

/-- R[i] <- v (R16). No register is hardwired (R21). -/
def State.writeReg (s : State) (i : RegIx) (v : Byte) : State := { s with regs := s.regs.set i v }

/-- SP is exactly R[7] (R22). -/
def State.sp (s : State) : Byte := s.readReg Config.spIndex

/-- R[7] <- v (R22). -/
def State.setSp (s : State) (v : Byte) : State := s.writeReg Config.spIndex v

/-- FL <- v, the whole byte (R16). -/
def State.setFl (s : State) (v : Byte) : State := { s with fl := v }

/-- pc <- target (R16). -/
def State.setPc (s : State) (target : Byte) : State := { s with pc := target }

/-- RUN <- false (R16). -/
def State.halt (s : State) : State := { s with run := false }

/-- Out.emit(v): append a byte to the output sequence (R10, R16). -/
def State.emit (s : State) (v : Byte) : State := { s with out := s.out ++ [v] }

/-! ### Taking a fault (R151, R158, R159) -/

/-- The cause code recorded in FAULT_CAUSE (R151; the codes are the spec's decision D9, assumption 14). -/
def faultCode : FaultKind → BitVec 3
  | .unsupportedOpcode => 1
  | .unsupportedAluOperation => 2
  | .outOfBoundsFetch => 3
  | .outOfBoundsAdvance => 3
  | .outOfBoundsStack => 3
  | .invalidRegister => 4

/-- The byte recorded in FAULT_IR when `opc` is the opcode byte: 0x00 for a fault at the fetch, where nothing has been
read yet (R32, R151). -/
def faultIrOf : FaultKind → Byte → Byte
  | .unsupportedOpcode, opc => opc
  | .unsupportedAluOperation, opc => opc
  | .outOfBoundsFetch, _ => 0x00
  | .outOfBoundsAdvance, opc => opc
  | .outOfBoundsStack, opc => opc
  | .invalidRegister, opc => opc

/-- Fault entry (R158): the fault record is written, RUN becomes false, and nothing else happens; the core goes
nowhere and there is no return from it (R162): only reset leaves the state. Applied to the state before the
faulting instruction, so a fault is precise (R159). -/
def State.takeFault (s : State) (k : FaultKind) (opc : Byte) : State :=
  { s with run := false, faultCause := faultCode k, faultPc := s.pc, faultIr := faultIrOf k opc }

/-! ### Fetch (R81) and the trace tuple (R166) -/

/-- The highest pc at which three bytes can be fetched (R81). -/
def fetchLimit : Nat := 0xFD

/-- The three bytes of this step: `opc`, `a`, `b` (R81). Not state. -/
structure Fetched where
  /-- The opcode byte, M[pc]. -/
  opc : Byte
  /-- The first operand byte, M[pc+1]. -/
  a : Byte
  /-- The second operand byte, M[pc+2]. -/
  b : Byte
  deriving DecidableEq, Repr

/-- The address `pc + n` (R134): exact, because `pc <= 0xFD` is checked before any is formed. -/
def State.pcPlus (s : State) (n : Nat) : Byte := BitVec.ofNat 8 (s.pc.toNat + n)

/-- The fetch unit: always three bytes, guarded before any read, whatever the opcode (R81). -/
def fetch (s : State) : Except FaultKind Fetched :=
  if s.pc.toNat > fetchLimit then .error .outOfBoundsFetch
  else .ok { opc := s.memRead (s.pcPlus 0), a := s.memRead (s.pcPlus 1), b := s.memRead (s.pcPlus 2) }

/-- The trace tuple of R13 and R166. -/
structure Trace where
  /-- pc at the fetch. -/
  pc : Byte
  /-- The three raw bytes. -/
  bytes : Fetched
  /-- R0 to R7 before the instruction's effect. -/
  regs : Vector Byte 8
  deriving DecidableEq, Repr

/-- The tuple the trace interface shows for the step that starts in this state: sampled at the fetch, none when the core
makes no fetch or the fetch faults (R166). It changes nothing and nothing reads it; assumption 19. -/
def State.trace (s : State) : Option Trace :=
  if s.run = true then
    match fetch s with
    | .ok f => some { pc := s.pc, bytes := f, regs := s.regs }
    | .error _ => none
  else none

/-! ### The sequencer (R84, R87) -/

/-- The new pc of a sequential advance by `n`, checked to fit before anything is written (R87). -/
def seqPc (n : Nat) (s : State) : Except FaultKind Byte :=
  if s.pc.toNat + n > 0xFF then .error .outOfBoundsAdvance else .ok (s.pcPlus n)

/-! ### The stack (R110 to R112) -/

/-- STACK_CEILING: the highest legal SP (R7, D6). -/
def stackCeiling : Nat := 0xF4

/-- The push side's guard: STACK_FLOOR < SP <= STACK_CEILING (R111). -/
def State.pushOk (s : State) : Bool :=
  decide (s.stackFloor.toNat < s.sp.toNat) && decide (s.sp.toNat ≤ stackCeiling)

/-- The pop side's guard: STACK_FLOOR <= SP < STACK_CEILING (R112). -/
def State.popOk (s : State) : Bool :=
  decide (s.stackFloor.toNat ≤ s.sp.toNat) && decide (s.sp.toNat < stackCeiling)

/-- The first half of a push: the guard, then R[7] <- R[7] - 1 (R111). PUSH reads its operand register after this. -/
def openSlot (s : State) : Except FaultKind State :=
  if s.pushOk then .ok (s.setSp (s.sp - 1)) else .error .outOfBoundsStack

/-- StackPush(v): guard, decrement, then write at the new SP (R111). -/
def stackPush (v : Byte) (s : State) : Except FaultKind State := do
  let t ← openSlot s
  return t.memWrite t.sp v

/-- StackPop(): guard, read, then increment; the popped byte and the state after (R112). -/
def stackPop (s : State) : Except FaultKind (Byte × State) :=
  if s.popOk then .ok (s.memRead s.sp, s.setSp (s.sp + 1)) else .error .outOfBoundsStack

/-! ### Running a handler (R80, R81, R85, R159) -/

/-- One instruction's handler run in a state: a stopped core changes nothing (R80); an instruction that could not have
been fetched raises the front end's fault (R81); otherwise the handler's writes are all made, or, when it raises,
none of them and the fault is taken (R85, R159). Assumptions 4 and 7. -/
def perform (opc : Byte) (s : State) (handler : Except FaultKind State) : Result :=
  if s.run = false then .next s
  else if s.pc.toNat > fetchLimit then .next (s.takeFault .outOfBoundsFetch opc)
  else
    match handler with
    | .ok t => .next t
    | .error k => .next (s.takeFault k opc)

end Sys2Proof.Machine
end

