-- ==== Sys2Proof/Machine/Flags.lean ====
section
/-! DEFINITION. The flag bits and the ALU (10_state.md R28 to R30; 44_alu_compare.md R130, R131, R133). -/

namespace Sys2Proof.Machine

/-- FL when the operands are equal: bit 0, E (R28). -/
def flEqual : Byte := 0x01
/-- FL when the first operand is greater: bit 1, G (R28). -/
def flGreater : Byte := 0x02
/-- FL when the first operand is less: bit 2, L (R28). -/
def flLess : Byte := 0x04

/-- E, bit 0 of FL: the only bit any instruction reads (R29). -/
def State.flagE (s : State) : Bool := s.fl.getLsbD 0
/-- G, bit 1 of FL (R28). -/
def State.flagG (s : State) : Bool := s.fl.getLsbD 1
/-- L, bit 2 of FL (R28). -/
def State.flagL (s : State) : Bool := s.fl.getLsbD 2

/-- AluCompare(x, y): the one-hot three-way order of two bytes read as unsigned integers (R130, R133; unsigned is the
spec's decision D13, assumption 13). -/
def aluCompare (x y : Byte) : Byte :=
  if x.toNat < y.toNat then flLess else if x.toNat > y.toNat then flGreater else flEqual

/-- The ALU's operation tag: one implemented case, and every other request (R131; assumption 18). -/
inductive AluOp where
  /-- The implemented operation. -/
  | compare
  /-- Any other requested operation: no instruction of this core makes one. -/
  | other (tag : Byte)
  deriving DecidableEq, Repr

/-- The ALU: two register indices in, FL out and nothing else written; any operation other than compare is the fatal
UnsupportedAluOperation (R130, R131, R153). -/
def aluRequest (op : AluOp) (ra rb : RegIx) (s : State) : Except FaultKind State :=
  match op with
  | .compare => .ok (s.setFl (aluCompare (s.readReg ra) (s.readReg rb)))
  | .other _ => .error .unsupportedAluOperation

end Sys2Proof.Machine
end

