-- ==== Sys2Proof/Machine/Operands.lean ====
section
/-! DEFINITION. The operand forms: a register operand byte and its check, and CALL's re-read operand (30_encoding.md R64;
40_engine.md R83; 43_call_return.md R120). The immediate byte is taken as it stands (R65) and needs no operation. -/

namespace Sys2Proof.Machine

/-- The register a register operand byte names; a byte above 7 names none and raises InvalidRegister, unmasked
(R64, R83). -/
def regOperand (x : Byte) : Except FaultKind RegIx :=
  if h : x.toNat < 8 then .ok ⟨x.toNat, h⟩ else .error .invalidRegister

/-- CALL's return address `pc + 2` (R120). -/
def State.returnAddress (s : State) : Byte := s.pcPlus 2

/-- The push of a CALL in this state lands on the CALL's own operand byte: R[7] - 1 = pc + 1 (R120). -/
def State.callAlias (s : State) : Bool := s.pushOk && decide (s.sp.toNat - 1 = s.pc.toNat + 1)

/-- What M[pc+1] holds when CALL re-reads it after its push: the return address just pushed if the push landed
there, otherwise the byte fetched (R120, normative form; 90_conflicts.md C7). -/
def callOperand (fetched : Byte) (s : State) : Byte := if s.callAlias then s.returnAddress else fetched

end Sys2Proof.Machine
end

