-- ==== Sys2Proof/Machine/Branch.lean ====
section
/-! DEFINITION. JMP, JEQ and JNE (45_branch.md R140 to R143). -/

namespace Sys2Proof.Machine

/-- JMP r (R141): pc <- R[r]. -/
def execJmp (r : Byte) (s : State) : Result :=
  perform opcJmp s do
    let i ← regOperand r
    return s.setPc (s.readReg i)

/-- Where a conditional branch goes: to R[i] when its condition holds, else to pc + 2 (R142, R143). -/
def branchTarget (taken : Bool) (i : RegIx) (s : State) : Except FaultKind Byte :=
  if taken then .ok (s.readReg i) else seqPc 2 s

/-- JEQ r (R142): taken if FL[0] = 1; the register byte is checked taken or not. -/
def execJeq (r : Byte) (s : State) : Result :=
  perform opcJeq s do
    let i ← regOperand r
    let next ← branchTarget s.flagE i s
    return s.setPc next

/-- JNE r (R143): taken if FL[0] = 0; the register byte is checked taken or not. -/
def execJne (r : Byte) (s : State) : Result :=
  perform opcJne s do
    let i ← regOperand r
    let next ← branchTarget (!s.flagE) i s
    return s.setPc next

end Sys2Proof.Machine
end

