-- ==== Sys2Proof/Machine/CallReturn.lean ====
section
/-! DEFINITION. CALL and RET (43_call_return.md R120, R121). -/

namespace Sys2Proof.Machine

/-- CALL r (R120, normative form): push pc + 2, then pc <- the register named by the operand byte RE-READ AFTER the
push, that register read after the decrement of R7. A bad register is reported before a bad SP (R157). -/
def execCall (r : Byte) (s : State) : Result :=
  perform opcCall s do
    let i ← regOperand (callOperand r s)
    let t ← stackPush s.returnAddress s
    return t.setPc (t.readReg i)

/-- RET (R121): pc <- the popped byte. -/
def execRet (s : State) : Result :=
  perform opcRet s do
    let (v, t) ← stackPop s
    return t.setPc v

end Sys2Proof.Machine
end

