-- ==== Sys2Proof/Machine/Compare.lean ====
section
/-! DEFINITION. CMP (44_alu_compare.md R132). -/

namespace Sys2Proof.Machine

/-- CMP ra,rb (R132): FL <- AluCompare(R[ra], R[rb]), the whole byte; pc <- pc + 3. `ra` is checked before `rb`. -/
def execCmp (ra rb : Byte) (s : State) : Result :=
  perform opcCmp s do
    let i ← regOperand ra
    let j ← regOperand rb
    let next ← seqPc 3 s
    let t ← aluRequest .compare i j s
    return t.setPc next

end Sys2Proof.Machine
end

