-- ==== Sys2Proof/Machine/Stack.lean ====
section
/-! DEFINITION. PUSH and POP (42_stack.md R113, R114). -/

namespace Sys2Proof.Machine

/-- PUSH r (R113): decrement SP, then write R[r], READ AFTER THE DECREMENT, at the new SP; pc <- pc + 2. So PUSH R7
stores the decremented SP (D7; assumption 11). -/
def execPush (r : Byte) (s : State) : Result :=
  perform opcPush s do
    let i ← regOperand r
    let t ← openSlot s
    let next ← seqPc 2 s
    return (t.memWrite t.sp (t.readReg i)).setPc next

/-- POP r (R114): read M[SP], increment SP, then write the byte to R[r], LAST; pc <- pc + 2. So POP R7 leaves the
popped byte in SP (D7; assumption 11). -/
def execPop (r : Byte) (s : State) : Result :=
  perform opcPop s do
    let i ← regOperand r
    let (v, t) ← stackPop s
    let next ← seqPc 2 s
    return (t.writeReg i v).setPc next

end Sys2Proof.Machine
end

