-- ==== Sys2Proof/Machine/System.lean ====
section
/-! DEFINITION. HLT, LDI and PRN (41_system_data.md R100 to R102). -/

namespace Sys2Proof.Machine

/-- HLT (R100): RUN <- false; pc keeps the address of the HLT. -/
def execHlt (s : State) : Result :=
  perform opcHlt s (.ok s.halt)

/-- LDI r,imm8 (R101): R[r] <- imm8, pc <- pc + 3. No check when r is the stack pointer. -/
def execLdi (r imm : Byte) (s : State) : Result :=
  perform opcLdi s do
    let i ← regOperand r
    let next ← seqPc 3 s
    return (s.writeReg i imm).setPc next

/-- PRN r (R102): emit R[r] on the output interface, pc <- pc + 2. -/
def execPrn (r : Byte) (s : State) : Result :=
  perform opcPrn s do
    let i ← regOperand r
    let next ← seqPc 2 s
    return (s.emit (s.readReg i)).setPc next

end Sys2Proof.Machine
end

