-- ==== Sys2Proof/Machine/Step.lean ====
section
/-! DEFINITION. One step: the common front end, then the instruction (40_engine.md R80 to R86); and the host's
withFetchWord. -/

namespace Sys2Proof.Machine

/-- One whole instruction, one atomic transition (R86). A stopped core changes nothing (R80); a fetch past the top
raises OutOfBounds (R81); an opcode byte without a handler raises UnsupportedOpcode (R82); otherwise the decoded
instruction runs (R83, R84). -/
def step (s : State) : Host.Outcome State Fault Refusal :=
  if s.run = false then .next s
  else
    match fetch s with
    | .error k => .next (s.takeFault k 0x00)
    | .ok f =>
      match decode f.opc f.a f.b with
      | .error _ => .next (s.takeFault .unsupportedOpcode f.opc)
      | .ok i => exec i s

/-- The state with the table's word stored where the next step fetches: the three bytes at pc, pc + 1, pc + 2 (R81),
bits from `nbits` up being 0, and RUN true, without which no step fetches (R80); assumption 17. -/
def State.withFetchWord (s : State) (nbits w : Nat) : State :=
  { ((s.memWrite (s.pcPlus 0) (tableByte nbits w 0)).memWrite (s.pcPlus 1) (tableByte nbits w 1)).memWrite
      (s.pcPlus 2) (tableByte nbits w 2) with run := true }

end Sys2Proof.Machine
end

