-- ==== Sys2Proof/Machine/Boot.lean ====
section
/-! DEFINITION. What the host does to the block: the reset event and the start sequence (00_scope.md R9, R12;
60_exceptions.md R156; 70_reset_and_hazards.md R180, R181, R184). No step of the machine calls anything here. -/

namespace Sys2Proof.Machine

/-- The reset event, in any state (R180; D20, assumption 17): every piece of state takes its reset value. STACK_FLOOR is
the platform's constant, not the core's state (R35), and stays. -/
def State.applyReset (s : State) : State := { State.reset with stackFloor := s.stackFloor }

/-- Why the host does not start a program. No fault of the core: it has no cause code (R156). -/
inductive LoadError where
  /-- The loader has no image to give (file missing, or a line that does not parse: R156), or the image has more than 256
  bytes, which the host must refuse (R184, D16). -/
  | programLoadError
  deriving DecidableEq, Repr

/-- How the start sequence ends, and the core's state then. -/
inductive Boot where
  /-- The core was released in this state and goes on to its first step (R181, step 3). -/
  | released (s : State)
  /-- The sequence stopped before the release: the core is in this state, still held in reset (R156, R181). -/
  | held (why : LoadError) (s : State)
  deriving DecidableEq, Repr

/-- The core's state when the start sequence has ended, as the host reads it. -/
def Boot.state : Boot → State
  | .released s => s
  | .held _ s => s

/-- The loader's writes while the core is held in reset: the image's bytes sequentially from address `k` (R9, R181). -/
def State.loadFrom (s : State) : Nat → List Byte → State
  | _, [] => s
  | k, v :: rest => State.loadFrom { s with mem := s.mem.write k v } (k + 1) rest

/-- The start sequence in any state (R181): reset, then load from address 0, then the release. What the external loader
offers is an image, or `none` when it failed to read one. A load failure stops the sequence before the release and leaves
the core in its reset state, no byte written (R156); an image longer than memory is such a failure (R184, D16).
Assumption 17. -/
def State.boot (s : State) (offered : Option (List Byte)) : Boot :=
  match offered with
  | none => .held .programLoadError s.applyReset
  | some image =>
    if image.length > Config.memSize then .held .programLoadError s.applyReset
    else .released (s.applyReset.loadFrom 0 image)

/-- The core's next step when the start sequence has ended: a released core steps (R181, step 3); one held in reset
performs none, so its RUN never starts (R156, R180). -/
def Boot.firstStep : Boot → Option Result
  | .released s => some (step s)
  | .held _ _ => none

end Sys2Proof.Machine
end

