-- ==== Sys2Proof/Safety.lean ====
section
/-! DEFINITION. The terms claims are stated in: what a run ended in, when an instruction executes, the record a fault
leaves, the invariant of the machine, and which registers and flag bits an instruction may depend on. -/

namespace Sys2Proof.Machine

/-! ### How a step and a run end (R85, R88) -/

/-- The core is running: a step is one instruction (R80). -/
abbrev State.Running (s : State) : Prop := s.run = true ∧ s.faultCause = 0

/-- The run ended by HLT: a normal completion (R88). -/
abbrev State.Halted (s : State) : Prop := s.run = false ∧ s.faultCause = 0

/-- The run ended by a fault: an abnormal termination, never a final state a claim may rely on (R88, R159). -/
abbrev State.Faulted (s : State) : Prop := s.run = false ∧ s.faultCause ≠ 0

/-- The front end lets an instruction run: RUN is true (R80) and its three bytes can be fetched (R81). -/
abbrev State.Ready (s : State) : Prop := s.run = true ∧ s.pc.toNat ≤ 0xFD

/-- What a fault leaves: the record written, RUN false, everything else as before the instruction (R158, R159). -/
def State.faulted (s : State) (cause : BitVec 3) (ir : Byte) : State :=
  { s with run := false, faultCause := cause, faultPc := s.pc, faultIr := ir }

/-- RUN and the fault record are as before, or a fault was taken and nothing else happened. -/
abbrev RecordKept (s t : State) : Prop :=
  (t.run = s.run ∧ t.faultCause = s.faultCause ∧ t.faultPc = s.faultPc ∧ t.faultIr = s.faultIr) ∨
    (t.faultCause ≠ 0 ∧ t = s.faulted t.faultCause t.faultIr)

/-- The instruction completed with its own effect: it could run, no fault had happened and none happened. -/
abbrev Completes (i : Instr) (s t : State) : Prop :=
  s.Ready ∧ s.faultCause = 0 ∧ exec i s = .next t ∧ t.faultCause = 0

/-! ### The stack's legal ranges (R23, R111, R112) -/

/-- SP is in the range a push needs: STACK_FLOOR < SP <= 0xF4 (R111). -/
abbrev State.CanPush (s : State) : Prop := s.stackFloor.toNat < s.regs[7].toNat ∧ s.regs[7].toNat ≤ 0xF4

/-- SP is in the range a pop needs: STACK_FLOOR <= SP < 0xF4 (R112). -/
abbrev State.CanPop (s : State) : Prop := s.stackFloor.toNat ≤ s.regs[7].toNat ∧ s.regs[7].toNat < 0xF4

/-- The register index byte CALL uses: the byte re-read from M[pc+1] after the push, which is the return address when
the push landed there, else the fetched byte (R120; for a state in which the push is legal). -/
def State.reRead (s : State) (fetched : Byte) : Byte :=
  if s.regs[7].toNat = s.pc.toNat + 2 then s.pc + 2 else fetched

/-! ### The invariant -/

/-- How a fault record reads (R151, R152, R154, R155): which FAULT_IR and FAULT_PC go with each cause. Cause 2 is
reached by no program (R153). -/
abbrev RecordLegal (cause : BitVec 3) (pc ir : Byte) : Prop :=
  (cause = 1 ∧ ir ∉ opcodeBytes ∧ pc.toNat ≤ 0xFD) ∨
  (cause = 3 ∧ ir = 0x00 ∧ 0xFE ≤ pc.toNat) ∨
  (cause = 3 ∧ ir ∈ [(0x82 : Byte), 0xA7] ∧ pc = 0xFD) ∨
  (cause = 3 ∧ ir ∈ [(0x45 : Byte), 0x50, 0x46, 0x11] ∧ pc.toNat ≤ 0xFD) ∨
  (cause = 4 ∧ ir ∈ [(0x82 : Byte), 0x47, 0x45, 0x46, 0x50, 0xA7, 0x54, 0x55, 0x56] ∧ pc.toNat ≤ 0xFD)

/-- What holds at reset and what every step keeps. -/
structure State.Inv (s : State) : Prop where
  /-- Memory is in its canonical form. -/
  memWf : s.mem.wf = true
  /-- FL is one of 0x01, 0x02, 0x04 (R30). -/
  flOneHot : s.fl = 0x01 ∨ s.fl = 0x02 ∨ s.fl = 0x04
  /-- STACK_FLOOR < STACK_CEILING (92_eei_decisions.md, open parameters). -/
  floorLow : s.stackFloor.toNat < 0xF4
  /-- With no fault since reset the record is clear (R32, R33). -/
  recordClear : s.faultCause = 0 → s.faultPc = 0 ∧ s.faultIr = 0
  /-- After a fault the core is stopped at the faulting instruction and the record reads as the spec says
  (R151, R154, R158, R159). -/
  recordSet : s.faultCause ≠ 0 → s.run = false ∧ s.faultPc = s.pc ∧ RecordLegal s.faultCause s.faultPc s.faultIr

/-! ### What an instruction may depend on -/

/-- The answer with a function applied to its next state. -/
def mapNext (f : State → State) : Result → Result
  | .next s => .next (f s)
  | .fault r => .fault r
  | .refused r => .refused r

/-- The instruction works on the stack, so it uses R7 without naming it (R21). -/
def usesStack : Instr → Bool
  | .push _ => true
  | .pop _ => true
  | .call _ => true
  | .ret => true
  | .hlt => false
  | .ldi _ _ => false
  | .prn _ => false
  | .cmp _ _ => false
  | .jmp _ => false
  | .jeq _ => false
  | .jne _ => false

/-- The register indices an instruction's operand bytes name in a state (R21; CALL's is the re-read byte, R120). -/
def operandIndices (s : State) : Instr → List Nat
  | .hlt => []
  | .ldi r _ => [r.toNat]
  | .prn r => [r.toNat]
  | .push r => [r.toNat]
  | .pop r => [r.toNat]
  | .call r => [(callOperand r s).toNat]
  | .ret => []
  | .cmp ra rb => [ra.toNat, rb.toNat]
  | .jmp r => [r.toNat]
  | .jeq r => [r.toNat]
  | .jne r => [r.toNat]

/-- The instruction is CMP, the one writer of FL (R29). -/
def isCmp : Instr → Bool
  | .cmp _ _ => true
  | .hlt => false
  | .ldi _ _ => false
  | .prn _ => false
  | .push _ => false
  | .pop _ => false
  | .call _ => false
  | .ret => false
  | .jmp _ => false
  | .jeq _ => false
  | .jne _ => false

/-- The instruction is JEQ or JNE, the readers of FL (R29). -/
def readsFl : Instr → Bool
  | .jeq _ => true
  | .jne _ => true
  | .hlt => false
  | .ldi _ _ => false
  | .prn _ => false
  | .push _ => false
  | .pop _ => false
  | .call _ => false
  | .ret => false
  | .cmp _ _ => false
  | .jmp _ => false

/-- Pushing bytes one after the other with no pop (R110). -/
def pushAll : List Byte → State → Except FaultKind State
  | [], s => .ok s
  | v :: rest, s => do pushAll rest (← stackPush v s)

end Sys2Proof.Machine
end

