-- ==== Sys2Proof/Certificates/Slice0/Obligations.lean ====
section
/-! DEFINITION. The statements for the provers, each from a rule of spec/ that its docstring names. The terms they use stand
in Sys2Proof/Safety.lean. -/

open Sys2Proof Sys2Proof.Machine

/-! ### Reset, boot and the invariant -/

/-- 10_state.md R33: what reset leaves. R0 to R6 at 0x00 is the spec's decision D8 (assumption 2), the cleared fault
record its decision D9 (assumption 14), and the STACK_FLOOR default its decision D6 (assumption 5). -/
def Obligations.ResetValues : Prop :=
  (∀ a : Byte, State.reset.memRead a = 0x00) ∧ (∀ j : Fin 8, j ≠ 7 → State.reset.regs[j] = 0x00) ∧
    State.reset.regs[7] = 0xF4 ∧ State.reset.fl = 0x01 ∧ State.reset.pc = 0x00 ∧ State.reset.run = true ∧
    State.reset.faultCause = 0 ∧ State.reset.faultPc = 0x00 ∧ State.reset.faultIr = 0x00 ∧ State.reset.out = [] ∧
    State.reset.stackFloor = 0x00

/-- The invariant holds at reset (10_state.md R30, R33). It rests on the model's choices in assumption 5 (STACK_FLOOR
in State); assumption 14 (the fault record of D9); assumption 20 (the canonical memory form). -/
def Obligations.ResetMeetsInvariant : Prop := State.reset.Inv

/-- Every step keeps the invariant, from every state that meets it: memory stays canonical, FL one-hot (R30), the
fault record clear or legal with the core stopped at the faulting instruction (R151, R154, R158). It rests on the
model's choices in assumption 1 (the opcode bytes of D1); assumption 5 (STACK_FLOOR in State); assumption 8 (D3);
assumption 9 (D4, D5); assumption 10 (the stack guards of D6); assumption 14 (the fault record of D9); assumption 15
(precise faults, D10); assumption 20 (the canonical memory form). -/
def Obligations.StepKeepsInvariant : Prop := ∀ s t : State, s.Inv → step s = .next t → t.Inv

/-- 70_reset_and_hazards.md R180, R181, R184: from any state (halted and faulted ones too) reset and load give the
reset state with the image from address 0 and zeros above, released for its first step; an image longer than 256 bytes
is refused. Decisions D16, D20 (assumption 17). It rests on the model's choices in assumption 2 (R0 to R6 at reset,
D8); assumption 5 (STACK_FLOOR in State); assumption 14 (the fault record of D9). -/
def Obligations.BootLoadsProgram : Prop :=
  ∀ (s : State) (image : List Byte),
    (image.length ≤ 256 →
      ∃ t, s.boot (some image) = .released t ∧ (s.boot (some image)).firstStep = some (step t) ∧
        (∀ a : Byte, t.memRead a = image.getD a.toNat 0x00) ∧
        t = { State.reset with mem := t.mem, stackFloor := s.stackFloor } ∧
        (s.stackFloor.toNat < 0xF4 → t.Inv)) ∧
    (256 < image.length → ∃ t, s.boot (some image) = .held .programLoadError t)

/-- 60_exceptions.md R156, 70_reset_and_hazards.md R181: a load failure (no image to load, or by decision D16 one
longer than 256 bytes: assumption 17) leaves the core in its reset state with no cause code, and it performs no step.
It rests on the model's choices in assumption 2 (R0 to R6 at reset, D8); assumption 5 (STACK_FLOOR in State);
assumption 14 (the fault record of D9). -/
def Obligations.LoadFailureLeavesResetState : Prop :=
  ∀ (s : State) (offered : Option (List Byte)), (∀ image ∈ offered, 256 < image.length) →
    s.boot offered = .held .programLoadError { State.reset with stackFloor := s.stackFloor } ∧
    (s.boot offered).state.faultCause = 0 ∧ (s.boot offered).firstStep = none

/-! ### The step -/

/-- 40_engine.md R81, R82, R84, R86: when the three bytes at pc decode to an instruction, the step is that instruction,
with nothing added around it (the engine does not advance the pc). -/
def Obligations.StepRunsDecodedInstruction : Prop :=
  ∀ (s : State) (i : Instr), s.Ready →
    decodeBytes [s.memRead s.pc, s.memRead (s.pc + 1), s.memRead (s.pc + 2)] = .ok i → step s = exec i s

/-- 40_engine.md R81, 60_exceptions.md R154 (decision D4, assumption 9): above 0xFD the fetch faults, whatever the
bytes and whatever the instruction. It rests on the model's choices in assumption 7 (exec's front-end conditions);
assumption 14 (the fault record of D9); assumption 15 (precise faults, D10). -/
def Obligations.FetchPastTopFaults : Prop :=
  ∀ s : State, s.run = true → 0xFD < s.pc.toNat →
    step s = .next (s.faulted 3 0x00) ∧ ∀ i : Instr, exec i s = .next (s.faulted 3 0x00)

/-- 60_exceptions.md R152, 30_encoding.md R67 (which bytes are opcodes rests on decision D1, assumption 1): each of
the 245 other byte values faults with cause 1 and the byte in FAULT_IR. It rests on the model's choices in assumption
14 (the fault record of D9); assumption 15 (precise faults, D10). -/
def Obligations.UnsupportedOpcodeFaults : Prop :=
  (∀ s : State, s.Ready →
    s.memRead s.pc ∉ [(0x01 : Byte), 0x82, 0x47, 0x45, 0x46, 0x50, 0x11, 0xA7, 0x54, 0x55, 0x56] →
    step s = .next (s.faulted 1 (s.memRead s.pc))) ∧
  ((List.range 256).filter fun n => decide (BitVec.ofNat 8 n ∉
    [(0x01 : Byte), 0x82, 0x47, 0x45, 0x46, 0x50, 0x11, 0xA7, 0x54, 0x55, 0x56])).length = 245

/-- 40_engine.md R80: with RUN false no state changes; with RUN true there is a step, and RUN becomes false by HLT or by
a fault and by nothing else. -/
def Obligations.RunningFlagGovernsSteps : Prop :=
  (∀ s : State, s.run = false → step s = .next s) ∧
  (∀ s : State, s.Running → ∃ t, step s = .next t ∧
    (t.run = false ↔ (s.pc.toNat ≤ 0xFD ∧ s.memRead s.pc = 0x01) ∨ t.faultCause ≠ 0))

/-- 40_engine.md R85, 60_exceptions.md R158, R159: every step of a running core ends in exactly one of three ways:
next, halted with only RUN changed, or faulted with only RUN and the fault record changed (a fault is precise:
decision D10, assumption 15). It rests on the model's choices in assumption 14 (the fault record of D9); assumption 16
(the pc after HLT, D15). -/
def Obligations.StepEndsInOneOfThreeWays : Prop :=
  ∀ s : State, s.Running → ∃ t, step s = .next t ∧
    (t.Running ∨ (t.Halted ∧ t = { s with run := false }) ∨
      (t.Faulted ∧ t = s.faulted t.faultCause t.faultIr))

/-! ### What each instruction does when it executes -/

/-- 41_system_data.md R100: HLT completes with RUN false and nothing else changed; the pc stays (decision D15,
assumption 16). -/
def Obligations.HltResult : Prop :=
  ∀ s : State, s.Ready → exec .hlt s = .next { s with run := false }

/-- 41_system_data.md R101: LDI at pc up to 0xFC completes: R[r] is the immediate, R7 included, and pc advances by 3. -/
def Obligations.LdiResult : Prop :=
  ∀ (s : State) (r imm : Byte) (hr : r.toNat < 8), s.Ready → s.pc.toNat ≤ 0xFC →
    exec (.ldi r imm) s = .next { s with regs := s.regs.set r.toNat imm hr, pc := s.pc + 3 }

/-- 41_system_data.md R102: PRN completes: R[r] is emitted and pc advances by 2. -/
def Obligations.PrnResult : Prop :=
  ∀ (s : State) (r : Byte) (_ : r.toNat < 8), s.Ready →
    exec (.prn r) s = .next { s with out := s.out ++ [s.regs[r.toNat]], pc := s.pc + 2 }

/-- 42_stack.md R111, R113: PUSH with SP in STACK_FLOOR < SP <= 0xF4 completes: SP falls by 1 and R[r], read after the
decrement (decision D7, assumption 11), is written at the new SP. It rests on the model's choice in assumption 10 (the
stack guards of D6). -/
def Obligations.PushResult : Prop :=
  ∀ (s : State) (r : Byte) (_ : r.toNat < 8), s.Ready → s.CanPush →
    exec (.push r) s = .next { s with
      regs := s.regs.set 7 (s.regs[7] - 1)
      mem := s.mem.write (s.regs[7] - 1).toNat (if r.toNat = 7 then s.regs[7] - 1 else s.regs[r.toNat])
      pc := s.pc + 2 }

/-- 42_stack.md R112, R114: POP with SP in STACK_FLOOR <= SP < 0xF4 completes: SP rises by 1, then R[r] takes the byte
read at the old SP (so POP R7 leaves that byte in SP: decision D7, assumption 11). It rests on the model's choice in
assumption 10 (the stack guards of D6). -/
def Obligations.PopResult : Prop :=
  ∀ (s : State) (r : Byte) (hr : r.toNat < 8), s.Ready → s.CanPop →
    exec (.pop r) s = .next { s with
      regs := (s.regs.set 7 (s.regs[7] + 1)).set r.toNat (s.memRead s.regs[7]) hr
      pc := s.pc + 2 }

/-- 43_call_return.md R120: CALL with a legal SP and a re-read register byte that names a register `k` completes: pc + 2
is pushed and pc is R[k], read after the decrement (decisions D6, D7; assumptions 10 to 12). -/
def Obligations.CallResult : Prop :=
  ∀ (s : State) (r : Byte) (k : Fin 8), s.Ready → s.CanPush → (s.reRead r).toNat = k.val →
    exec (.call r) s = .next { s with
      regs := s.regs.set 7 (s.regs[7] - 1)
      mem := s.mem.write (s.regs[7] - 1).toNat (s.pc + 2)
      pc := if k = 7 then s.regs[7] - 1 else s.regs[k] }

/-- 43_call_return.md R121: RET with SP in STACK_FLOOR <= SP < 0xF4 completes: pc is the popped byte, SP rises by 1.
It rests on the model's choice in assumption 10 (the stack guards of D6). -/
def Obligations.RetResult : Prop :=
  ∀ s : State, s.Ready → s.CanPop →
    exec .ret s = .next { s with regs := s.regs.set 7 (s.regs[7] + 1), pc := s.memRead s.regs[7] }

/-- 44_alu_compare.md R130, R132, R133 (unsigned: decision D13, assumption 13): CMP at pc up to 0xFC completes: the
whole of FL is the one-hot order of the two registers, and pc advances by 3. -/
def Obligations.CmpResult : Prop :=
  ∀ (s : State) (ra rb : Byte) (_ : ra.toNat < 8) (_ : rb.toNat < 8), s.Ready → s.pc.toNat ≤ 0xFC →
    exec (.cmp ra rb) s = .next { s with
      fl := if s.regs[ra.toNat].toNat < s.regs[rb.toNat].toNat then 0x04
            else if s.regs[rb.toNat].toNat < s.regs[ra.toNat].toNat then 0x02 else 0x01
      pc := s.pc + 3 }

/-- 45_branch.md R141: JMP completes with pc = R[r], any byte, nothing else changed. -/
def Obligations.JmpResult : Prop :=
  ∀ (s : State) (r : Byte) (_ : r.toNat < 8), s.Ready →
    exec (.jmp r) s = .next { s with pc := s.regs[r.toNat] }

/-- 45_branch.md R142: JEQ completes: pc = R[r] if bit 0 of FL is 1, else pc + 2. -/
def Obligations.JeqResult : Prop :=
  ∀ (s : State) (r : Byte) (_ : r.toNat < 8), s.Ready →
    exec (.jeq r) s = .next { s with pc := if s.fl.getLsbD 0 = true then s.regs[r.toNat] else s.pc + 2 }

/-- 45_branch.md R143: JNE completes: pc = R[r] if bit 0 of FL is 0, else pc + 2. -/
def Obligations.JneResult : Prop :=
  ∀ (s : State) (r : Byte) (_ : r.toNat < 8), s.Ready →
    exec (.jne r) s = .next { s with pc := if s.fl.getLsbD 0 = false then s.regs[r.toNat] else s.pc + 2 }

/-! ### Where instructions trap -/

/-- 40_engine.md R83, 60_exceptions.md R155, R157 (decisions D3, D19; assumptions 8 and 15): a register operand byte
above 7 raises InvalidRegister in every instruction but CALL, whatever SP, FL and, up to 0xFD, pc are. It rests on the
model's choices in assumption 1 (the opcode bytes of D1); assumption 14 (the fault record of D9). -/
def Obligations.InvalidRegisterFaults : Prop :=
  ∀ (s : State) (r : Byte), s.Ready → 8 ≤ r.toNat →
    (∀ imm, exec (.ldi r imm) s = .next (s.faulted 4 0x82)) ∧
    exec (.prn r) s = .next (s.faulted 4 0x47) ∧
    exec (.push r) s = .next (s.faulted 4 0x45) ∧
    exec (.pop r) s = .next (s.faulted 4 0x46) ∧
    (∀ x, exec (.cmp r x) s = .next (s.faulted 4 0xA7)) ∧
    (∀ x, exec (.cmp x r) s = .next (s.faulted 4 0xA7)) ∧
    exec (.jmp r) s = .next (s.faulted 4 0x54) ∧
    exec (.jeq r) s = .next (s.faulted 4 0x55) ∧
    exec (.jne r) s = .next (s.faulted 4 0x56)

/-- 43_call_return.md R120, 60_exceptions.md R157: CALL checks the byte it re-reads after the push; with an SP that
cannot push there is nothing to re-read and the fetched byte is checked, before SP is reported. It rests on the
model's choices in assumption 1 (the opcode bytes of D1); assumption 8 (D3); assumption 10 (the stack guards of D6);
assumption 12 (CALL's re-read byte, C7); assumption 14 (the fault record of D9); assumption 15 (precise faults, D10).
-/
def Obligations.CallInvalidRegisterFaults : Prop :=
  ∀ (s : State) (r : Byte), s.Ready →
    (s.CanPush → 8 ≤ (s.reRead r).toNat → exec (.call r) s = .next (s.faulted 4 0x50)) ∧
    (¬ s.CanPush → 8 ≤ r.toNat → exec (.call r) s = .next (s.faulted 4 0x50))

/-- 42_stack.md R111, R112 (decision D6, assumption 10): a push or pop with SP outside its legal range raises
OutOfBounds, with a register byte that names a register. It rests on the model's choices in assumption 1 (the opcode
bytes of D1); assumption 14 (the fault record of D9); assumption 15 (precise faults, D10). -/
def Obligations.StackOutOfBoundsFaults : Prop :=
  ∀ (s : State) (r : Byte), s.Ready → r.toNat < 8 →
    (¬ s.CanPush → exec (.push r) s = .next (s.faulted 3 0x45) ∧ exec (.call r) s = .next (s.faulted 3 0x50)) ∧
    (¬ s.CanPop → exec (.pop r) s = .next (s.faulted 3 0x46) ∧ exec .ret s = .next (s.faulted 3 0x11))

/-- 40_engine.md R87 (decision D5, assumption 9): LDI and CMP at 0xFD raise OutOfBounds and write nothing. It rests on
the model's choices in assumption 1 (the opcode bytes of D1); assumption 14 (the fault record of D9); assumption 15
(precise faults, D10). -/
def Obligations.AdvanceOutOfBoundsFaults : Prop :=
  ∀ (s : State) (r x : Byte), s.run = true → s.pc = 0xFD → r.toNat < 8 →
    exec (.ldi r x) s = .next (s.faulted 3 0x82) ∧
    (x.toNat < 8 → exec (.cmp r x) s = .next (s.faulted 3 0xA7))

/-! ### Frames: what each instruction leaves unchanged -/

/-- HLT (R100): registers, FL, pc, output, STACK_FLOOR and every byte of memory; the fault record unless a fault is
taken. It rests on the model's choices in assumption 7 (exec's front-end conditions); assumption 14 (the fault record
of D9); assumption 15 (precise faults, D10); assumption 16 (the pc after HLT, D15). -/
def Obligations.HltFrame : Prop :=
  ∀ s t : State, exec .hlt s = .next t →
    t.regs = s.regs ∧ t.fl = s.fl ∧ t.pc = s.pc ∧ t.out = s.out ∧ t.stackFloor = s.stackFloor ∧
    (∀ a : Byte, t.memRead a = s.memRead a) ∧
    ((t.faultCause = s.faultCause ∧ t.faultPc = s.faultPc ∧ t.faultIr = s.faultIr) ∨
      t = s.faulted t.faultCause t.faultIr)

/-- LDI (R101): every register but the destination, FL, output, STACK_FLOOR, every byte of memory, RUN and the fault
record unless a fault is taken. It rests on the model's choices in assumption 7 (exec's front-end conditions);
assumption 14 (the fault record of D9); assumption 15 (precise faults, D10). -/
def Obligations.LdiFrame : Prop :=
  ∀ (s t : State) (r imm : Byte), exec (.ldi r imm) s = .next t →
    (∀ j : Fin 8, j.val ≠ r.toNat → t.regs[j] = s.regs[j]) ∧ t.fl = s.fl ∧ t.out = s.out ∧
    t.stackFloor = s.stackFloor ∧ (∀ a : Byte, t.memRead a = s.memRead a) ∧ RecordKept s t

/-- PRN (R102): every register, FL, STACK_FLOOR, every byte of memory, what was emitted before, RUN and the fault
record unless a fault is taken. It rests on the model's choices in assumption 7 (exec's front-end conditions);
assumption 14 (the fault record of D9); assumption 15 (precise faults, D10). -/
def Obligations.PrnFrame : Prop :=
  ∀ (s t : State) (r : Byte), exec (.prn r) s = .next t →
    t.regs = s.regs ∧ t.fl = s.fl ∧ t.stackFloor = s.stackFloor ∧ (∀ a : Byte, t.memRead a = s.memRead a) ∧
    (t.out = s.out ∨ ∃ v, t.out = s.out ++ [v]) ∧ RecordKept s t

/-- CMP (R130, R132): every register, output, STACK_FLOOR, every byte of memory, RUN and the fault record unless a
fault is taken; FL's bits 7:3 become 0 or FL is unchanged. It rests on the model's choices in assumption 7 (exec's
front-end conditions); assumption 14 (the fault record of D9); assumption 15 (precise faults, D10). -/
def Obligations.CmpFrame : Prop :=
  ∀ (s t : State) (ra rb : Byte), exec (.cmp ra rb) s = .next t →
    t.regs = s.regs ∧ t.out = s.out ∧ t.stackFloor = s.stackFloor ∧ (∀ a : Byte, t.memRead a = s.memRead a) ∧
    (t.fl = s.fl ∨ t.fl.toNat < 8) ∧ RecordKept s t

/-- JMP, JEQ, JNE (R140 to R143): everything but the pc, unless a fault is taken. It rests on the model's choices in
assumption 7 (exec's front-end conditions); assumption 14 (the fault record of D9); assumption 15 (precise faults,
D10). -/
def Obligations.BranchFrame : Prop :=
  ∀ (s t : State) (r : Byte),
    (exec (.jmp r) s = .next t ∨ exec (.jeq r) s = .next t ∨ exec (.jne r) s = .next t) →
    t.regs = s.regs ∧ t.fl = s.fl ∧ t.out = s.out ∧ t.stackFloor = s.stackFloor ∧
    (∀ a : Byte, t.memRead a = s.memRead a) ∧ RecordKept s t

/-- PUSH and CALL (R111, R113, R120): every register but the stack pointer R7, FL, output, STACK_FLOOR, every byte of
memory but the one at SP - 1, RUN and the fault record unless a fault is taken. It rests on the model's choices in
assumption 7 (exec's front-end conditions); assumption 14 (the fault record of D9); assumption 15 (precise faults,
D10). -/
def Obligations.PushCallFrame : Prop :=
  ∀ (s t : State) (r : Byte), (exec (.push r) s = .next t ∨ exec (.call r) s = .next t) →
    (∀ j : Fin 8, j ≠ 7 → t.regs[j] = s.regs[j]) ∧ t.fl = s.fl ∧ t.out = s.out ∧ t.stackFloor = s.stackFloor ∧
    (∀ a : Byte, a ≠ s.sp - 1 → t.memRead a = s.memRead a) ∧ RecordKept s t

/-- POP and RET (R112, R114, R121): every register but R7 and POP's destination, FL, output, STACK_FLOOR, every byte
of memory, RUN and the fault record unless a fault is taken. It rests on the model's choices in assumption 7 (exec's
front-end conditions); assumption 14 (the fault record of D9); assumption 15 (precise faults, D10). -/
def Obligations.PopRetFrame : Prop :=
  ∀ (s t : State) (r : Byte),
    (exec (.pop r) s = .next t → ∀ j : Fin 8, j ≠ 7 → j.val ≠ r.toNat → t.regs[j] = s.regs[j]) ∧
    (exec .ret s = .next t → ∀ j : Fin 8, j ≠ 7 → t.regs[j] = s.regs[j]) ∧
    (exec (.pop r) s = .next t ∨ exec .ret s = .next t →
      t.fl = s.fl ∧ t.out = s.out ∧ t.stackFloor = s.stackFloor ∧
      (∀ a : Byte, t.memRead a = s.memRead a) ∧ RecordKept s t)

/-! ### Encoding -/

/-- 30_encoding.md R60, R61, R66, R68: decode and encode agree. Decoding an instruction's encoding, whatever two bytes
follow it, gives the instruction back, with every operand byte; and three bytes or more decode to an instruction exactly
when they begin with its encoding. The second part also says that fewer than three bytes decode to nothing (HLT's
encoding alone does not decode): no rule of 30_encoding.md but the model's choice, assumption 22. -/
def Obligations.DecodeAgreesWithEncode : Prop :=
  (∀ (i : Instr) (x y : Byte), decodeBytes (encode i ++ [x, y]) = .ok i) ∧
  (∀ (bytes : List Byte) (i : Instr), decodeBytes bytes = .ok i ↔ 3 ≤ bytes.length ∧ encode i <+: bytes)

/-- 30_encoding.md R61, R66 (decision D1, assumption 1): one word of each instruction, written from the encoding tables. -/
def Obligations.EncodingTableWords : Prop :=
  decodeBytes [0b00000001, 0xAA, 0xBB] = .ok .hlt ∧
  decodeBytes [0b10000010, 0b00000101, 0b11110000] = .ok (.ldi 5 0xF0) ∧
  decodeBytes [0b01000111, 0b00000001, 0xBB] = .ok (.prn 1) ∧
  decodeBytes [0b01000101, 0b00000111, 0xBB] = .ok (.push 7) ∧
  decodeBytes [0b01000110, 0b00000010, 0xBB] = .ok (.pop 2) ∧
  decodeBytes [0b01010000, 0b00000100, 0xBB] = .ok (.call 4) ∧
  decodeBytes [0b00010001, 0xAA, 0xBB] = .ok .ret ∧
  decodeBytes [0b10100111, 0b00000011, 0b00000110] = .ok (.cmp 3 6) ∧
  decodeBytes [0b01010100, 0b00000000, 0xBB] = .ok (.jmp 0) ∧
  decodeBytes [0b01010101, 0b00000101, 0xBB] = .ok (.jeq 5) ∧
  decodeBytes [0b01010110, 0b00000110, 0xBB] = .ok (.jne 6)

/-- 30_encoding.md R68: the bytes beyond an instruction's length may hold anything. -/
def Obligations.TrailingBytesIgnored : Prop :=
  ∀ (opc a b : Byte) (i : Instr), decode opc a b = .ok i →
    ((encode i).length = 1 → ∀ a' b', decode opc a' b' = .ok i) ∧
    ((encode i).length = 2 → ∀ b', decode opc a b' = .ok i)

/-- 30_encoding.md R69: decoding is a match on the whole opcode byte: whether there is an instruction, and which one, is
the same for all operand bytes, and two opcode bytes never select one instruction. -/
def Obligations.OpcodeByteAloneSelects : Prop :=
  ∀ (opc a b : Byte) (i : Instr), decode opc a b = .ok i →
    (∀ a' b', ∃ i', decode opc a' b' = .ok i' ∧ opcodeOf i' = opcodeOf i ∧ (encode i').length = (encode i).length) ∧
    (∀ opc' a' b' i', decode opc' a' b' = .ok i' → opcodeOf i' = opcodeOf i → opc' = opc)

/-! ### Rules of the whole machine -/

/-- 10_state.md R29: CMP alone writes FL, and all eight bits of it: a completed CMP leaves the same state whatever FL was.
JEQ and JNE alone read FL, and bit 0 only: with FL replaced by any byte (for JEQ and JNE, one with the same bit 0) an
instruction other than CMP does exactly the same and keeps that byte. -/
def Obligations.FlagsWrittenByCmpReadByBranches : Prop :=
  (∀ (i : Instr) (s t : State), isCmp i = false → exec i s = .next t → t.fl = s.fl) ∧
  (∀ (ra rb : Byte) (s t : State) (f : Byte), Completes (.cmp ra rb) s t →
    exec (.cmp ra rb) { s with fl := f } = .next t) ∧
  (∀ (i : Instr) (s : State) (f : Byte), isCmp i = false →
    (readsFl i = true → f.getLsbD 0 = s.fl.getLsbD 0) →
    exec i { s with fl := f } = mapNext (fun t => { t with fl := f }) (exec i s))

/-- 10_state.md R21: a register that no operand byte names, and that is not the stack pointer of a stack instruction,
is neither read nor written: whatever byte it holds, the instruction does the same and leaves it. It rests on the
model's choice in assumption 12 (CALL's re-read byte, C7). -/
def Obligations.UnnamedRegisterIsUntouched : Prop :=
  ∀ (i : Instr) (s : State) (j : Fin 8) (v : Byte), j.val ∉ operandIndices s i → (usesStack i = true → j ≠ 7) →
    exec i { s with regs := s.regs.set j v } = mapNext (fun t => { t with regs := t.regs.set j v }) (exec i s)

/-- 10_state.md R35, 00_scope.md R10: the output is only appended to and never read: with any bytes emitted earlier
the step does the same and keeps them in front. It rests on the model's choice in assumption 6 (the output in State).
-/
def Obligations.OutputOnlyAppended : Prop :=
  ∀ (s : State) (o : List Byte),
    step { s with out := o ++ s.out } = mapNext (fun t => { t with out := o ++ t.out }) (step s)

/-- 10_state.md R35, 00_scope.md R7: STACK_FLOOR is a constant of the platform: no step changes it (assumption 5). -/
def Obligations.StackFloorIsConstant : Prop :=
  ∀ s t : State, step s = .next t → t.stackFloor = s.stackFloor

/-- 44_alu_compare.md R130, R133 (unsigned: decision D13, assumption 13): the ALU's compare writes FL alone, with the
one-hot code of the unsigned order of the two registers. -/
def Obligations.AluCompareContract : Prop :=
  ∀ (s : State) (i j : Fin 8), ∃ f : Byte, aluRequest .compare i j s = .ok { s with fl := f } ∧
    (s.regs[i].toNat < s.regs[j].toNat → f = 0x04) ∧ (s.regs[j].toNat < s.regs[i].toNat → f = 0x02) ∧
    (s.regs[i] = s.regs[j] → f = 0x01)

/-- 60_exceptions.md R153, 44_alu_compare.md R131 (decision D17, assumption 18): any other ALU operation is the fault
with code 2, and no step of any program reaches it. It rests on the model's choice in assumption 14 (the fault record
of D9). -/
def Obligations.UnsupportedAluUnreachable : Prop :=
  (∀ (tag : Byte) (i j : Fin 8) (s : State), aluRequest (.other tag) i j s = .error .unsupportedAluOperation) ∧
  faultCode .unsupportedAluOperation = 2 ∧
  (∀ s t : State, step s = .next t → s.faultCause ≠ 2 → t.faultCause ≠ 2)

/-- 20_memory.md R42: a read gives the byte last written, by a write or by the loader, or the reset value 0x00; a read
changes nothing, a write changes its cell alone and nothing else of the state; both at every address. -/
def Obligations.MemoryReadAfterWrite : Prop :=
  (∀ a : Byte, State.reset.memRead a = 0x00) ∧
  (∀ (s : State) (a v : Byte), s.mem.wf = true →
    (s.memWrite a v).memRead a = v ∧ (∀ b : Byte, b ≠ a → (s.memWrite a v).memRead b = s.memRead b) ∧
    s.memWrite a v = { s with mem := (s.memWrite a v).mem }) ∧
  (∀ (s : State) (image : List Byte) (a : Byte), s.mem.wf = true → image.length ≤ 256 →
    (s.loadFrom 0 image).memRead a = image.getD a.toNat (s.memRead a))

/-- The memory's canonical form is unique: two canonical memories that read alike are the same data (20_memory.md R40,
R55; the form is the model's, assumption 20). -/
def Obligations.CanonicalMemoryIsUnique : Prop :=
  ∀ m m' : Memory, m.wf = true → m'.wf = true → (∀ a : Nat, a < 256 → m.read a = m'.read a) → m = m'

/-- 20_memory.md R41: a step writes memory only when it is a PUSH or a CALL that may push, and then only the cell at
SP - 1. It rests on the model's choices in assumption 1 (the opcode bytes of D1); assumption 10 (the stack guards of
D6). -/
def Obligations.OnlyPushAndCallWriteMemory : Prop :=
  ∀ s t : State, step s = .next t →
    (∀ a : Byte, t.memRead a = s.memRead a) ∨
    (s.Ready ∧ (s.memRead s.pc = 0x45 ∨ s.memRead s.pc = 0x50) ∧ s.CanPush ∧
      ∀ a : Byte, a ≠ s.regs[7] - 1 → t.memRead a = s.memRead a)

/-- 20_memory.md R52: the byte a PUSH stores is what the next fetch reads from that cell: code can be overwritten. It
rests on the model's choice in assumption 10 (the stack guards of D6). -/
def Obligations.PushedByteIsFetched : Prop :=
  ∀ (s : State) (r : Byte) (_ : r.toNat < 8), r.toNat ≠ 7 → s.Ready → s.CanPush → s.mem.wf = true →
    ∃ t, exec (.push r) s = .next t ∧ ∀ f, fetch t = .ok f →
      (s.regs[7] - 1 = t.pc → f.opc = s.regs[r.toNat]) ∧ (s.regs[7] - 1 = t.pc + 1 → f.a = s.regs[r.toNat]) ∧
      (s.regs[7] - 1 = t.pc + 2 → f.b = s.regs[r.toNat])

/-- 10_state.md R26: the pc after each instruction that completes; a sequential advance is the instruction's length.
It rests on the model's choices in assumption 11 (the order of D7); assumption 12 (CALL's re-read byte, C7);
assumption 16 (the pc after HLT, D15). -/
def Obligations.PcAdvanceTable : Prop :=
  ∀ s t : State,
    (Completes .hlt s t → t.pc = s.pc) ∧
    (∀ r imm, Completes (.ldi r imm) s t →
      t.pc.toNat = s.pc.toNat + 3 ∧ (encode (.ldi r imm)).length = 3) ∧
    (∀ r, Completes (.prn r) s t → t.pc.toNat = s.pc.toNat + 2 ∧ (encode (.prn r)).length = 2) ∧
    (∀ r, Completes (.push r) s t → t.pc.toNat = s.pc.toNat + 2 ∧ (encode (.push r)).length = 2) ∧
    (∀ r, Completes (.pop r) s t → t.pc.toNat = s.pc.toNat + 2 ∧ (encode (.pop r)).length = 2) ∧
    (∀ r, Completes (.call r) s t → ∃ k : Fin 8, (s.reRead r).toNat = k.val ∧ t.pc = t.regs[k]) ∧
    (Completes .ret s t → t.pc = s.memRead s.regs[7]) ∧
    (∀ ra rb, Completes (.cmp ra rb) s t →
      t.pc.toNat = s.pc.toNat + 3 ∧ (encode (.cmp ra rb)).length = 3) ∧
    (∀ r, Completes (.jmp r) s t → ∃ k : Fin 8, r.toNat = k.val ∧ t.pc = s.regs[k]) ∧
    (∀ r, Completes (.jeq r) s t → (s.fl.getLsbD 0 = true → ∃ k : Fin 8, r.toNat = k.val ∧ t.pc = s.regs[k]) ∧
      (s.fl.getLsbD 0 = false → t.pc.toNat = s.pc.toNat + 2 ∧ (encode (.jeq r)).length = 2)) ∧
    (∀ r, Completes (.jne r) s t → (s.fl.getLsbD 0 = false → ∃ k : Fin 8, r.toNat = k.val ∧ t.pc = s.regs[k]) ∧
      (s.fl.getLsbD 0 = true → t.pc.toNat = s.pc.toNat + 2 ∧ (encode (.jne r)).length = 2))

/-- 42_stack.md R110: full-descending. A push lowers SP by one and writes at the new SP; a pop reads and raises SP by one
and erases nothing; after k pushes from 0xF4 SP is 0xF4 - k and the entries lie at 0xF3 down to 0xF4 - k. -/
def Obligations.StackIsFullDescending : Prop :=
  (∀ (s t : State) (v : Byte), stackPush v s = .ok t →
    t = { s with regs := s.regs.set 7 (s.regs[7] - 1), mem := s.mem.write (s.regs[7] - 1).toNat v }) ∧
  (∀ (s t : State) (v : Byte), stackPop s = .ok (v, t) →
    v = s.memRead s.regs[7] ∧ t = { s with regs := s.regs.set 7 (s.regs[7] + 1) }) ∧
  (∀ (s : State) (vs : List Byte), s.regs[7] = 0xF4 → s.mem.wf = true →
    s.stackFloor.toNat + vs.length ≤ 0xF4 →
    ∃ t, pushAll vs s = .ok t ∧ t.regs[7].toNat = 0xF4 - vs.length ∧
      (∀ (n : Nat) (_ : n < vs.length), t.memRead (BitVec.ofNat 8 (0xF3 - n)) = vs[n]) ∧
      (∀ a : Byte, a.toNat < 0xF4 - vs.length ∨ 0xF4 ≤ a.toNat → t.memRead a = s.memRead a))

/-! ### Pairs of instructions -/

/-- 41_system_data.md R103: an LDI r,v and a PRN r after it, both in memory at pc, emit v and advance pc by 5. -/
def Obligations.LdiThenPrn : Prop :=
  ∀ (s : State) (r v : Byte), r.toNat < 8 → s.run = true → s.pc.toNat ≤ 0xFA →
    s.memRead s.pc = 0x82 → s.memRead (s.pc + 1) = r → s.memRead (s.pc + 2) = v →
    s.memRead (s.pc + 3) = 0x47 → s.memRead (s.pc + 4) = r →
    ∃ t u, step s = .next t ∧ step t = .next u ∧ u.out = s.out ++ [v] ∧ u.pc.toNat = s.pc.toNat + 5

/-- 42_stack.md R115: PUSH r then POP r', for r and r' in 0 to 6 and any legal SP, restores SP, leaves r' with r's
value before, and leaves that value in the cell. It rests on the model's choice in assumption 10 (the stack guards of
D6). -/
def Obligations.PushThenPop : Prop :=
  ∀ (s : State) (r r' : Byte) (_ : r.toNat < 7) (_ : r'.toNat < 7), s.run = true → s.pc.toNat ≤ 0xFB →
    s.CanPush → s.mem.wf = true →
    ∃ t u, exec (.push r) s = .next t ∧ exec (.pop r') t = .next u ∧ u.regs[7] = s.regs[7] ∧
      u.regs[r'.toNat] = s.regs[r.toNat] ∧ u.memRead (s.regs[7] - 1) = s.regs[r.toNat]

/-- 43_call_return.md R122: a CALL, and any later RET that finds SP and the top of the stack as the CALL left them,
return to the byte after the CALL's operand with SP as before the CALL. It rests on the model's choices in assumption
10 (the stack guards of D6); assumption 12 (CALL's re-read byte, C7). -/
def Obligations.CallThenReturn : Prop :=
  ∀ (s : State) (r : Byte), s.Ready → s.CanPush → (s.reRead r).toNat < 8 → s.mem.wf = true →
    ∃ t, exec (.call r) s = .next t ∧
      ∀ u : State, u.Ready → u.stackFloor = t.stackFloor → u.regs[7] = t.regs[7] →
        u.memRead u.regs[7] = t.memRead t.regs[7] →
        ∃ w, exec .ret u = .next w ∧ w.pc.toNat = s.pc.toNat + 2 ∧ w.regs[7] = s.regs[7]

/-- 45_branch.md R144: after a CMP a JEQ is taken exactly when the registers were equal and a JNE exactly when they were
not. -/
def Obligations.CompareThenBranch : Prop :=
  ∀ (s : State) (ra rb r : Byte) (_ : ra.toNat < 8) (_ : rb.toNat < 8) (_ : r.toNat < 8),
    s.run = true → s.pc.toNat ≤ 0xFA →
    ∃ t, exec (.cmp ra rb) s = .next t ∧
      (s.regs[ra.toNat] = s.regs[rb.toNat] →
        exec (.jeq r) t = .next { t with pc := s.regs[r.toNat] } ∧
        exec (.jne r) t = .next { t with pc := s.pc + 5 }) ∧
      (s.regs[ra.toNat] ≠ s.regs[rb.toNat] →
        exec (.jeq r) t = .next { t with pc := s.pc + 5 } ∧
        exec (.jne r) t = .next { t with pc := s.regs[r.toNat] })

/-- 45_branch.md R140, 10_state.md R27: a transfer to 0xFE or 0xFF is performed, and the next step's fetch faults
there. It rests on the model's choices in assumption 9 (D4, D5); assumption 14 (the fault record of D9). -/
def Obligations.TransferToTopFaultsAtNextFetch : Prop :=
  ∀ (s : State) (r : Byte) (_ : r.toNat < 8), s.Ready → 0xFE ≤ s.regs[r.toNat].toNat →
    ∃ t, exec (.jmp r) s = .next t ∧ t = { s with pc := s.regs[r.toNat] } ∧ step t = .next (t.faulted 3 0x00)

/-- 60_exceptions.md R166, 00_scope.md R13 (decision D21, assumption 19): the trace tuple is the pc, the three bytes there
and the registers before the instruction's effect; there is none where no fetch succeeds. -/
def Obligations.TraceTupleAtFetch : Prop :=
  ∀ s : State,
    (s.Ready → s.trace = some { pc := s.pc, regs := s.regs, bytes :=
      { opc := s.memRead s.pc, a := s.memRead (s.pc + 1), b := s.memRead (s.pc + 2) } }) ∧
    (¬ s.Ready → s.trace = none)
end

