-- ==== Sys2Proof/Laws/Boot.lean ====
section
/-! SUPPORT. What the reset event leaves in each field, and everything the start sequence can end in, said once. -/

namespace Sys2Proof.Machine

@[simp] theorem State.applyReset_mem (s : State) : s.applyReset.mem = State.reset.mem := rfl
@[simp] theorem State.applyReset_regs (s : State) : s.applyReset.regs = State.reset.regs := rfl
@[simp] theorem State.applyReset_fl (s : State) : s.applyReset.fl = State.reset.fl := rfl
@[simp] theorem State.applyReset_pc (s : State) : s.applyReset.pc = State.reset.pc := rfl
@[simp] theorem State.applyReset_run (s : State) : s.applyReset.run = State.reset.run := rfl
@[simp] theorem State.applyReset_faultCause (s : State) : s.applyReset.faultCause = State.reset.faultCause := rfl
@[simp] theorem State.applyReset_faultPc (s : State) : s.applyReset.faultPc = State.reset.faultPc := rfl
@[simp] theorem State.applyReset_faultIr (s : State) : s.applyReset.faultIr = State.reset.faultIr := rfl
@[simp] theorem State.applyReset_out (s : State) : s.applyReset.out = State.reset.out := rfl
@[simp] theorem State.applyReset_stackFloor (s : State) : s.applyReset.stackFloor = s.stackFloor := rfl

@[simp] theorem Boot.state_released (s : State) : (Boot.released s).state = s := rfl
@[simp] theorem Boot.state_held (why : LoadError) (s : State) : (Boot.held why s).state = s := rfl
@[simp] theorem Boot.firstStep_released (s : State) : (Boot.released s).firstStep = some (step s) := rfl
@[simp] theorem Boot.firstStep_held (why : LoadError) (s : State) : (Boot.held why s).firstStep = none := rfl

/-- The start sequence either releases the core with an image that fits loaded, or stops with the core at reset. -/
theorem boot_cases (s : State) (offered : Option (List Byte)) :
    (∃ image, offered = some image ∧ image.length ≤ Config.memSize ∧
      s.boot offered = .released (s.applyReset.loadFrom 0 image)) ∨
    ((∀ image ∈ offered, Config.memSize < image.length) ∧ s.boot offered = .held .programLoadError s.applyReset) := by
  cases offered with
  | none => exact .inr ⟨nofun, rfl⟩
  | some image =>
    by_cases h : image.length > Config.memSize
    · refine .inr ⟨?_, if_pos h⟩
      rintro _ ⟨⟩
      exact h
    · exact .inl ⟨image, rfl, Nat.le_of_not_lt h, if_neg h⟩

end Sys2Proof.Machine
end

