-- ==== Sys2Proof/Laws/Decode.lean ====
section
/-! SUPPORT. What the decoder can answer, said once. -/

namespace Sys2Proof

/-- An opcode byte outside the map is refused by name (R67). -/
theorem decode_error {opc : Byte} (a b : Byte) (h : opc ∉ opcodeBytes) :
    decode opc a b = .error (.unsupportedOpcode opc) := by
  simp only [opcodeBytes, List.mem_cons, List.not_mem_nil, or_false, not_or] at h
  obtain ⟨h1, h2, h3, h4, h5, h6, h7, h8, h9, h10, h11⟩ := h
  simp only [decode, if_neg h1, if_neg h2, if_neg h3, if_neg h4, if_neg h5, if_neg h6, if_neg h7, if_neg h8,
    if_neg h9, if_neg h10, if_neg h11]

/-- Everything the decoder can do with three bytes: the opcode byte alone selects, and the operand bytes go in as they
stand. -/
theorem decode_cases (opc a b : Byte) :
    (opc = opcHlt ∧ decode opc a b = .ok .hlt) ∨ (opc = opcLdi ∧ decode opc a b = .ok (.ldi a b)) ∨
    (opc = opcPrn ∧ decode opc a b = .ok (.prn a)) ∨ (opc = opcPush ∧ decode opc a b = .ok (.push a)) ∨
    (opc = opcPop ∧ decode opc a b = .ok (.pop a)) ∨ (opc = opcCall ∧ decode opc a b = .ok (.call a)) ∨
    (opc = opcRet ∧ decode opc a b = .ok .ret) ∨ (opc = opcCmp ∧ decode opc a b = .ok (.cmp a b)) ∨
    (opc = opcJmp ∧ decode opc a b = .ok (.jmp a)) ∨ (opc = opcJeq ∧ decode opc a b = .ok (.jeq a)) ∨
    (opc = opcJne ∧ decode opc a b = .ok (.jne a)) ∨
    (opc ∉ opcodeBytes ∧ decode opc a b = .error (.unsupportedOpcode opc)) := by
  by_cases h : opc ∈ opcodeBytes
  · simp only [opcodeBytes, List.mem_cons, List.not_mem_nil, or_false] at h
    rcases h with rfl | rfl | rfl | rfl | rfl | rfl | rfl | rfl | rfl | rfl | rfl
    · exact .inl ⟨rfl, rfl⟩
    · exact .inr (.inl ⟨rfl, rfl⟩)
    · exact .inr (.inr (.inl ⟨rfl, rfl⟩))
    · exact .inr (.inr (.inr (.inl ⟨rfl, rfl⟩)))
    · exact .inr (.inr (.inr (.inr (.inl ⟨rfl, rfl⟩))))
    · exact .inr (.inr (.inr (.inr (.inr (.inl ⟨rfl, rfl⟩)))))
    · exact .inr (.inr (.inr (.inr (.inr (.inr (.inl ⟨rfl, rfl⟩))))))
    · exact .inr (.inr (.inr (.inr (.inr (.inr (.inr (.inl ⟨rfl, rfl⟩)))))))
    · exact .inr (.inr (.inr (.inr (.inr (.inr (.inr (.inr (.inl ⟨rfl, rfl⟩))))))))
    · exact .inr (.inr (.inr (.inr (.inr (.inr (.inr (.inr (.inr (.inl ⟨rfl, rfl⟩)))))))))
    · exact .inr (.inr (.inr (.inr (.inr (.inr (.inr (.inr (.inr (.inr (.inl ⟨rfl, rfl⟩))))))))))
  · exact .inr (.inr (.inr (.inr (.inr (.inr (.inr (.inr (.inr (.inr (.inr (⟨h, decode_error a b h⟩)))))))))))

end Sys2Proof
end

