-- ==== Sys2Proof/Laws/State.lean ====
section
/-! SUPPORT. For each field and each update of State, what the field holds after the update: true by rfl, so that no later
proof unfolds a record update. -/

namespace Sys2Proof.Machine

/-! ### memWrite -/

@[simp] theorem State.memWrite_mem (s : State) (addr v : Byte) : (s.memWrite addr v).mem = s.mem.write addr.toNat v := rfl
@[simp] theorem State.memWrite_regs (s : State) (addr v : Byte) : (s.memWrite addr v).regs = s.regs := rfl
@[simp] theorem State.memWrite_fl (s : State) (addr v : Byte) : (s.memWrite addr v).fl = s.fl := rfl
@[simp] theorem State.memWrite_pc (s : State) (addr v : Byte) : (s.memWrite addr v).pc = s.pc := rfl
@[simp] theorem State.memWrite_run (s : State) (addr v : Byte) : (s.memWrite addr v).run = s.run := rfl
@[simp] theorem State.memWrite_faultCause (s : State) (addr v : Byte) : (s.memWrite addr v).faultCause = s.faultCause := rfl
@[simp] theorem State.memWrite_faultPc (s : State) (addr v : Byte) : (s.memWrite addr v).faultPc = s.faultPc := rfl
@[simp] theorem State.memWrite_faultIr (s : State) (addr v : Byte) : (s.memWrite addr v).faultIr = s.faultIr := rfl
@[simp] theorem State.memWrite_out (s : State) (addr v : Byte) : (s.memWrite addr v).out = s.out := rfl
@[simp] theorem State.memWrite_stackFloor (s : State) (addr v : Byte) : (s.memWrite addr v).stackFloor = s.stackFloor := rfl

/-! ### writeReg -/

@[simp] theorem State.writeReg_mem (s : State) (i : RegIx) (v : Byte) : (s.writeReg i v).mem = s.mem := rfl
@[simp] theorem State.writeReg_regs (s : State) (i : RegIx) (v : Byte) : (s.writeReg i v).regs = s.regs.set i v := rfl
@[simp] theorem State.writeReg_fl (s : State) (i : RegIx) (v : Byte) : (s.writeReg i v).fl = s.fl := rfl
@[simp] theorem State.writeReg_pc (s : State) (i : RegIx) (v : Byte) : (s.writeReg i v).pc = s.pc := rfl
@[simp] theorem State.writeReg_run (s : State) (i : RegIx) (v : Byte) : (s.writeReg i v).run = s.run := rfl
@[simp] theorem State.writeReg_faultCause (s : State) (i : RegIx) (v : Byte) : (s.writeReg i v).faultCause = s.faultCause := rfl
@[simp] theorem State.writeReg_faultPc (s : State) (i : RegIx) (v : Byte) : (s.writeReg i v).faultPc = s.faultPc := rfl
@[simp] theorem State.writeReg_faultIr (s : State) (i : RegIx) (v : Byte) : (s.writeReg i v).faultIr = s.faultIr := rfl
@[simp] theorem State.writeReg_out (s : State) (i : RegIx) (v : Byte) : (s.writeReg i v).out = s.out := rfl
@[simp] theorem State.writeReg_stackFloor (s : State) (i : RegIx) (v : Byte) : (s.writeReg i v).stackFloor = s.stackFloor := rfl

/-! ### setSp -/

@[simp] theorem State.setSp_mem (s : State) (v : Byte) : (s.setSp v).mem = s.mem := rfl
@[simp] theorem State.setSp_regs (s : State) (v : Byte) : (s.setSp v).regs = s.regs.set Config.spIndex v := rfl
@[simp] theorem State.setSp_fl (s : State) (v : Byte) : (s.setSp v).fl = s.fl := rfl
@[simp] theorem State.setSp_pc (s : State) (v : Byte) : (s.setSp v).pc = s.pc := rfl
@[simp] theorem State.setSp_run (s : State) (v : Byte) : (s.setSp v).run = s.run := rfl
@[simp] theorem State.setSp_faultCause (s : State) (v : Byte) : (s.setSp v).faultCause = s.faultCause := rfl
@[simp] theorem State.setSp_faultPc (s : State) (v : Byte) : (s.setSp v).faultPc = s.faultPc := rfl
@[simp] theorem State.setSp_faultIr (s : State) (v : Byte) : (s.setSp v).faultIr = s.faultIr := rfl
@[simp] theorem State.setSp_out (s : State) (v : Byte) : (s.setSp v).out = s.out := rfl
@[simp] theorem State.setSp_stackFloor (s : State) (v : Byte) : (s.setSp v).stackFloor = s.stackFloor := rfl

/-! ### setFl -/

@[simp] theorem State.setFl_mem (s : State) (v : Byte) : (s.setFl v).mem = s.mem := rfl
@[simp] theorem State.setFl_regs (s : State) (v : Byte) : (s.setFl v).regs = s.regs := rfl
@[simp] theorem State.setFl_fl (s : State) (v : Byte) : (s.setFl v).fl = v := rfl
@[simp] theorem State.setFl_pc (s : State) (v : Byte) : (s.setFl v).pc = s.pc := rfl
@[simp] theorem State.setFl_run (s : State) (v : Byte) : (s.setFl v).run = s.run := rfl
@[simp] theorem State.setFl_faultCause (s : State) (v : Byte) : (s.setFl v).faultCause = s.faultCause := rfl
@[simp] theorem State.setFl_faultPc (s : State) (v : Byte) : (s.setFl v).faultPc = s.faultPc := rfl
@[simp] theorem State.setFl_faultIr (s : State) (v : Byte) : (s.setFl v).faultIr = s.faultIr := rfl
@[simp] theorem State.setFl_out (s : State) (v : Byte) : (s.setFl v).out = s.out := rfl
@[simp] theorem State.setFl_stackFloor (s : State) (v : Byte) : (s.setFl v).stackFloor = s.stackFloor := rfl

/-! ### setPc -/

@[simp] theorem State.setPc_mem (s : State) (v : Byte) : (s.setPc v).mem = s.mem := rfl
@[simp] theorem State.setPc_regs (s : State) (v : Byte) : (s.setPc v).regs = s.regs := rfl
@[simp] theorem State.setPc_fl (s : State) (v : Byte) : (s.setPc v).fl = s.fl := rfl
@[simp] theorem State.setPc_pc (s : State) (v : Byte) : (s.setPc v).pc = v := rfl
@[simp] theorem State.setPc_run (s : State) (v : Byte) : (s.setPc v).run = s.run := rfl
@[simp] theorem State.setPc_faultCause (s : State) (v : Byte) : (s.setPc v).faultCause = s.faultCause := rfl
@[simp] theorem State.setPc_faultPc (s : State) (v : Byte) : (s.setPc v).faultPc = s.faultPc := rfl
@[simp] theorem State.setPc_faultIr (s : State) (v : Byte) : (s.setPc v).faultIr = s.faultIr := rfl
@[simp] theorem State.setPc_out (s : State) (v : Byte) : (s.setPc v).out = s.out := rfl
@[simp] theorem State.setPc_stackFloor (s : State) (v : Byte) : (s.setPc v).stackFloor = s.stackFloor := rfl

/-! ### halt -/

@[simp] theorem State.halt_mem (s : State) : (s.halt).mem = s.mem := rfl
@[simp] theorem State.halt_regs (s : State) : (s.halt).regs = s.regs := rfl
@[simp] theorem State.halt_fl (s : State) : (s.halt).fl = s.fl := rfl
@[simp] theorem State.halt_pc (s : State) : (s.halt).pc = s.pc := rfl
@[simp] theorem State.halt_run (s : State) : (s.halt).run = false := rfl
@[simp] theorem State.halt_faultCause (s : State) : (s.halt).faultCause = s.faultCause := rfl
@[simp] theorem State.halt_faultPc (s : State) : (s.halt).faultPc = s.faultPc := rfl
@[simp] theorem State.halt_faultIr (s : State) : (s.halt).faultIr = s.faultIr := rfl
@[simp] theorem State.halt_out (s : State) : (s.halt).out = s.out := rfl
@[simp] theorem State.halt_stackFloor (s : State) : (s.halt).stackFloor = s.stackFloor := rfl

/-! ### emit -/

@[simp] theorem State.emit_mem (s : State) (v : Byte) : (s.emit v).mem = s.mem := rfl
@[simp] theorem State.emit_regs (s : State) (v : Byte) : (s.emit v).regs = s.regs := rfl
@[simp] theorem State.emit_fl (s : State) (v : Byte) : (s.emit v).fl = s.fl := rfl
@[simp] theorem State.emit_pc (s : State) (v : Byte) : (s.emit v).pc = s.pc := rfl
@[simp] theorem State.emit_run (s : State) (v : Byte) : (s.emit v).run = s.run := rfl
@[simp] theorem State.emit_faultCause (s : State) (v : Byte) : (s.emit v).faultCause = s.faultCause := rfl
@[simp] theorem State.emit_faultPc (s : State) (v : Byte) : (s.emit v).faultPc = s.faultPc := rfl
@[simp] theorem State.emit_faultIr (s : State) (v : Byte) : (s.emit v).faultIr = s.faultIr := rfl
@[simp] theorem State.emit_out (s : State) (v : Byte) : (s.emit v).out = s.out ++ [v] := rfl
@[simp] theorem State.emit_stackFloor (s : State) (v : Byte) : (s.emit v).stackFloor = s.stackFloor := rfl

/-! ### takeFault -/

@[simp] theorem State.takeFault_mem (s : State) (k : FaultKind) (opc : Byte) : (s.takeFault k opc).mem = s.mem := rfl
@[simp] theorem State.takeFault_regs (s : State) (k : FaultKind) (opc : Byte) : (s.takeFault k opc).regs = s.regs := rfl
@[simp] theorem State.takeFault_fl (s : State) (k : FaultKind) (opc : Byte) : (s.takeFault k opc).fl = s.fl := rfl
@[simp] theorem State.takeFault_pc (s : State) (k : FaultKind) (opc : Byte) : (s.takeFault k opc).pc = s.pc := rfl
@[simp] theorem State.takeFault_run (s : State) (k : FaultKind) (opc : Byte) : (s.takeFault k opc).run = false := rfl
@[simp] theorem State.takeFault_faultCause (s : State) (k : FaultKind) (opc : Byte) : (s.takeFault k opc).faultCause = faultCode k := rfl
@[simp] theorem State.takeFault_faultPc (s : State) (k : FaultKind) (opc : Byte) : (s.takeFault k opc).faultPc = s.pc := rfl
@[simp] theorem State.takeFault_faultIr (s : State) (k : FaultKind) (opc : Byte) : (s.takeFault k opc).faultIr = faultIrOf k opc := rfl
@[simp] theorem State.takeFault_out (s : State) (k : FaultKind) (opc : Byte) : (s.takeFault k opc).out = s.out := rfl
@[simp] theorem State.takeFault_stackFloor (s : State) (k : FaultKind) (opc : Byte) : (s.takeFault k opc).stackFloor = s.stackFloor := rfl

end Sys2Proof.Machine
end

