-- ==== Sys2Proof/Laws/Memory.lean ====
section
/-! SUPPORT. The memory's laws: the canonical form is kept, a read after a write, and equal reads mean equal memories. -/

namespace Sys2Proof.Machine

theorem Memory.wfFrom_cons (lo k : Nat) (w : Byte) (rest : Memory) :
    Memory.wfFrom lo ((k, w) :: rest) = true ↔
      lo ≤ k ∧ k < 256 ∧ w ≠ 0 ∧ Memory.wfFrom (k + 1) rest = true := by
  simp only [Memory.wfFrom, Bool.and_eq_true, decide_eq_true_iff, and_assoc]
  exact Iff.rfl

/-- A canonical memory from `lo` is canonical from every smaller address. -/
theorem Memory.wfFrom_mono {lo lo' : Nat} (h : lo' ≤ lo) :
    ∀ {m : Memory}, Memory.wfFrom lo m = true → Memory.wfFrom lo' m = true
  | [], _ => rfl
  | (k, w) :: rest, hm => by
    rw [Memory.wfFrom_cons] at *
    exact ⟨h.trans hm.1, hm.2⟩

/-- Below the first address of a canonical memory nothing is listed. -/
theorem Memory.read_below : ∀ {m : Memory} {lo a : Nat}, Memory.wfFrom lo m = true → a < lo → m.read a = 0
  | [], _, _, _, _ => rfl
  | (k, w) :: rest, lo, a, hm, ha => by
    rw [Memory.wfFrom_cons] at hm
    obtain ⟨hk, -, -, hrest⟩ := hm
    rw [Memory.read, if_neg (by omega)]
    exact Memory.read_below hrest (by omega)

/-- A write keeps the canonical form from any address at or below the one written. -/
theorem Memory.wfFrom_write {a : Nat} (v : Byte) (ha : a < 256) :
    ∀ {m : Memory} {lo : Nat}, Memory.wfFrom lo m = true → lo ≤ a → Memory.wfFrom lo (m.write a v) = true
  | [], lo, _, hlo => by
    unfold Memory.write
    split
    · rfl
    · rename_i hv
      exact (Memory.wfFrom_cons _ _ _ _).2 ⟨hlo, ha, hv, rfl⟩
  | (k, w) :: rest, lo, hm, hlo => by
    have hm' := (Memory.wfFrom_cons _ _ _ _).1 hm
    obtain ⟨hk, hk', hw, hrest⟩ := hm'
    unfold Memory.write
    split_ifs with h1 h2 h3 h4
    · exact hm
    · exact (Memory.wfFrom_cons _ _ _ _).2
        ⟨hlo, ha, h2, (Memory.wfFrom_cons _ _ _ _).2 ⟨by omega, hk', hw, hrest⟩⟩
    · exact Memory.wfFrom_mono (by omega) hrest
    · exact (Memory.wfFrom_cons _ _ _ _).2 ⟨hlo, ha, h4, Memory.wfFrom_mono (by omega) hrest⟩
    · exact (Memory.wfFrom_cons _ _ _ _).2 ⟨hk, hk', hw, Memory.wfFrom_write v ha hrest (by omega)⟩

/-- Every write inside the address space keeps the canonical form. -/
theorem Memory.wf_write {m : Memory} (hm : m.wf = true) {a : Nat} (ha : a < 256) (v : Byte) :
    (m.write a v).wf = true :=
  Memory.wfFrom_write v ha hm (Nat.zero_le a)

/-- A write leaves every other address as it was. -/
theorem Memory.read_write_ne {a b : Nat} (v : Byte) (hab : b ≠ a) : ∀ m : Memory, (m.write a v).read b = m.read b
  | [] => by
    unfold Memory.write
    split
    · rfl
    · exact if_neg (Ne.symm hab)
  | (k, w) :: rest => by
    unfold Memory.write
    split_ifs with h1 h2 h3 h4
    · rfl
    · rw [Memory.read, if_neg (Ne.symm hab)]
    · rw [Memory.read, if_neg (by omega)]
    · rw [Memory.read, if_neg (Ne.symm hab), Memory.read, if_neg (by omega)]
    · rw [Memory.read, Memory.read, Memory.read_write_ne v hab rest]

/-- A read of the address just written gives the byte written. -/
theorem Memory.read_write_same {a : Nat} (v : Byte) :
    ∀ {m : Memory} {lo : Nat}, Memory.wfFrom lo m = true → (m.write a v).read a = v
  | [], _, _ => by
    unfold Memory.write
    split_ifs with h
    · exact h.symm
    · rw [Memory.read, if_pos rfl]
  | (k, w) :: rest, lo, hm => by
    rw [Memory.wfFrom_cons] at hm
    obtain ⟨-, -, -, hrest⟩ := hm
    unfold Memory.write
    split_ifs with h1 h2 h3 h4
    · rw [Memory.read, if_neg (by omega), Memory.read_below hrest (by omega), h2]; rfl
    · rw [Memory.read, if_pos rfl]
    · rw [Memory.read_below hrest (by omega), h4]; rfl
    · rw [Memory.read, if_pos rfl]
    · rw [Memory.read, if_neg (by omega)]
      exact Memory.read_write_same v hrest

@[simp] theorem State.memWrite_wf {s : State} (hm : s.mem.wf = true) (addr v : Byte) :
    (s.memWrite addr v).mem.wf = true :=
  Memory.wf_write hm addr.isLt v

/-- Read after write, same cell. -/
theorem State.memRead_memWrite_same {s : State} (hm : s.mem.wf = true) (addr v : Byte) :
    (s.memWrite addr v).memRead addr = v :=
  Memory.read_write_same v hm

/-- Read after write, another cell. -/
theorem State.memRead_memWrite_ne (s : State) {addr b : Byte} (v : Byte) (h : b ≠ addr) :
    (s.memWrite addr v).memRead b = s.memRead b :=
  Memory.read_write_ne v (fun e => h (BitVec.eq_of_toNat_eq e)) s.mem

end Sys2Proof.Machine
end

