-- ==== Sys2Proof/Laws/Ops.lean ====
section
/-! SUPPORT. One lemma per shared operation that says everything it can do; the meanings' lemmas cite these instead of
unfolding the operations. -/

namespace Sys2Proof.Machine

/-! ### Bytes and registers -/

/-- `pc + n` formed without wrapping is the byte sum. -/
theorem State.pcPlus_eq (s : State) (n : Nat) : s.pcPlus n = s.pc + BitVec.ofNat 8 n := by
  apply BitVec.eq_of_toNat_eq
  simp [State.pcPlus, BitVec.toNat_add]

@[simp] theorem State.readReg_eq (s : State) (i : RegIx) : s.readReg i = s.regs[i.val] := rfl

@[simp] theorem State.sp_eq (s : State) : s.sp = s.regs[7] := rfl

/-- A register read after a register write. -/
theorem State.readReg_writeReg (s : State) (i j : RegIx) (v : Byte) :
    (s.writeReg i v).readReg j = if i = j then v else s.readReg j := by
  simp [State.readReg, State.writeReg, Vector.getElem_set, Fin.ext_iff]

/-- SP after SP was set. -/
@[simp] theorem State.sp_setSp (s : State) (v : Byte) : (s.setSp v).sp = v := by
  simp [State.sp, State.setSp, State.readReg, State.writeReg]

/-! ### Taking a fault -/

/-- Fault entry in the terms of the claims. -/
theorem State.takeFault_eq (s : State) (k : FaultKind) (opc : Byte) :
    s.takeFault k opc = s.faulted (faultCode k) (faultIrOf k opc) := rfl

/-- Every fault has a cause code of its own kind, never 0. -/
theorem faultCode_ne_zero (k : FaultKind) : faultCode k ≠ 0 := by cases k <;> decide

/-! ### Operand check -/

theorem regOperand_ok {x : Byte} (h : x.toNat < 8) : regOperand x = .ok ⟨x.toNat, h⟩ := dif_pos h

theorem regOperand_error {x : Byte} (h : ¬ x.toNat < 8) : regOperand x = .error .invalidRegister := dif_neg h

/-- What the operand check can answer. -/
theorem regOperand_cases (x : Byte) :
    (∃ h : x.toNat < 8, regOperand x = .ok ⟨x.toNat, h⟩) ∨
      (¬ x.toNat < 8 ∧ regOperand x = .error .invalidRegister) := by
  by_cases h : x.toNat < 8
  · exact .inl ⟨h, regOperand_ok h⟩
  · exact .inr ⟨h, regOperand_error h⟩

/-! ### Sequencer -/

theorem seqPc_ok {n : Nat} {s : State} (h : s.pc.toNat + n ≤ 0xFF) :
    seqPc n s = .ok (s.pc + BitVec.ofNat 8 n) := by
  rw [seqPc, if_neg (by omega), State.pcPlus_eq]

theorem seqPc_error {n : Nat} {s : State} (h : 0xFF < s.pc.toNat + n) :
    seqPc n s = .error .outOfBoundsAdvance := if_pos h

/-- A two-byte advance fits whenever the instruction could be fetched. -/
theorem seqPc_two {s : State} (h : s.pc.toNat ≤ 0xFD) : seqPc 2 s = .ok (s.pc + 2) :=
  seqPc_ok (by omega)

/-- A three-byte advance fits below 0xFD. -/
theorem seqPc_three {s : State} (h : s.pc.toNat ≤ 0xFC) : seqPc 3 s = .ok (s.pc + 3) :=
  seqPc_ok (by omega)

/-! ### Stack -/

theorem State.pushOk_iff (s : State) : s.pushOk = true ↔ s.CanPush := by
  simp only [State.pushOk, Bool.and_eq_true, decide_eq_true_iff]
  exact Iff.rfl

theorem State.popOk_iff (s : State) : s.popOk = true ↔ s.CanPop := by
  simp only [State.popOk, Bool.and_eq_true, decide_eq_true_iff]
  exact Iff.rfl

theorem openSlot_ok {s : State} (h : s.CanPush) : openSlot s = .ok (s.setSp (s.sp - 1)) :=
  if_pos (s.pushOk_iff.2 h)

theorem openSlot_error {s : State} (h : ¬ s.CanPush) : openSlot s = .error .outOfBoundsStack :=
  if_neg (fun e => h (s.pushOk_iff.1 e))

/-- What opening a stack slot can answer. -/
theorem openSlot_cases (s : State) :
    (s.CanPush ∧ openSlot s = .ok (s.setSp (s.sp - 1))) ∨
      (¬ s.CanPush ∧ openSlot s = .error .outOfBoundsStack) := by
  by_cases h : s.CanPush
  · exact .inl ⟨h, openSlot_ok h⟩
  · exact .inr ⟨h, openSlot_error h⟩

theorem stackPush_ok {s : State} (h : s.CanPush) (v : Byte) :
    stackPush v s = .ok ((s.setSp (s.sp - 1)).memWrite (s.sp - 1) v) := by
  rw [stackPush, openSlot_ok h]
  show Except.ok ((s.setSp (s.sp - 1)).memWrite (s.setSp (s.sp - 1)).sp v) = _
  rw [State.sp_setSp]

theorem stackPush_error {s : State} (h : ¬ s.CanPush) (v : Byte) :
    stackPush v s = .error .outOfBoundsStack := by
  simp only [stackPush, openSlot_error h]
  rfl

theorem stackPop_ok {s : State} (h : s.CanPop) : stackPop s = .ok (s.memRead s.sp, s.setSp (s.sp + 1)) :=
  if_pos (s.popOk_iff.2 h)

theorem stackPop_error {s : State} (h : ¬ s.CanPop) : stackPop s = .error .outOfBoundsStack :=
  if_neg (fun e => h (s.popOk_iff.1 e))

/-- What a push can answer. -/
theorem stackPush_cases (v : Byte) (s : State) :
    (s.CanPush ∧ stackPush v s = .ok ((s.setSp (s.sp - 1)).memWrite (s.sp - 1) v)) ∨
      (¬ s.CanPush ∧ stackPush v s = .error .outOfBoundsStack) := by
  by_cases h : s.CanPush
  · exact .inl ⟨h, stackPush_ok h v⟩
  · exact .inr ⟨h, stackPush_error h v⟩

/-- What a pop can answer. -/
theorem stackPop_cases (s : State) :
    (s.CanPop ∧ stackPop s = .ok (s.memRead s.sp, s.setSp (s.sp + 1))) ∨
      (¬ s.CanPop ∧ stackPop s = .error .outOfBoundsStack) := by
  by_cases h : s.CanPop
  · exact .inl ⟨h, stackPop_ok h⟩
  · exact .inr ⟨h, stackPop_error h⟩

/-! ### Running a handler -/

theorem perform_stopped {s : State} (h : s.run = false) (opc : Byte) (r : Except FaultKind State) :
    perform opc s r = .next s := if_pos h

theorem perform_unfetchable {s : State} (h : s.run = true) (hpc : 0xFD < s.pc.toNat) (opc : Byte)
    (r : Except FaultKind State) : perform opc s r = .next (s.takeFault .outOfBoundsFetch opc) := by
  unfold perform
  rw [if_neg (by simp [h]), if_pos (by simpa [fetchLimit] using hpc)]

theorem perform_ok {s : State} (h : s.Ready) (opc : Byte) (t : State) : perform opc s (.ok t) = .next t := by
  unfold perform
  rw [if_neg (by simp [h.1]), if_neg (by simpa [fetchLimit] using h.2)]

theorem perform_error {s : State} (h : s.Ready) (opc : Byte) (k : FaultKind) :
    perform opc s (.error k) = .next (s.takeFault k opc) := by
  unfold perform
  rw [if_neg (by simp [h.1]), if_neg (by simpa [fetchLimit] using h.2)]

/-- Everything running a handler can do. -/
theorem perform_cases {opc : Byte} {s t : State} {r : Except FaultKind State} (h : perform opc s r = .next t) :
    (s.run = false ∧ t = s) ∨
      (s.run = true ∧ 0xFD < s.pc.toNat ∧ t = s.faulted 3 0x00) ∨
      (s.Ready ∧ r = .ok t) ∨
      (s.Ready ∧ ∃ k, r = .error k ∧ t = s.faulted (faultCode k) (faultIrOf k opc)) := by
  unfold perform at h
  split_ifs at h with hr hp
  · cases h; exact .inl ⟨hr, rfl⟩
  · cases h; exact .inr (.inl ⟨by simpa using hr, hp, rfl⟩)
  · have hready : s.Ready := ⟨by simpa using hr, by simpa [fetchLimit] using hp⟩
    cases r with
    | ok u => cases h; exact .inr (.inr (.inl ⟨hready, rfl⟩))
    | error k => cases h; exact .inr (.inr (.inr ⟨hready, k, rfl, rfl⟩))

/-- Running a handler always answers a next state. -/
theorem perform_total (opc : Byte) (s : State) (r : Except FaultKind State) : ∃ t, perform opc s r = .next t := by
  unfold perform
  split_ifs
  · exact ⟨_, rfl⟩
  · exact ⟨_, rfl⟩
  · cases r <;> exact ⟨_, rfl⟩

/-- An update of the state that a handler commutes with, and that keeps RUN and pc and commutes with fault entry, commutes
with running the handler: what a handler neither reads nor writes stays out of its run. -/
theorem perform_commute {g : State → State} {s : State} (hrun : (g s).run = s.run) (hpc : (g s).pc = s.pc) (opc : Byte)
    (hfault : ∀ k, (g s).takeFault k opc = g (s.takeFault k opc)) {r r' : Except FaultKind State}
    (hr : r' = r.map g) : perform opc (g s) r' = mapNext g (perform opc s r) := by
  subst hr
  unfold perform
  rw [hrun, hpc]
  split_ifs
  · rfl
  · rw [hfault]; rfl
  · cases r with
    | ok t => rfl
    | error k => exact congrArg Host.Outcome.next (hfault k)

/-! ### Fetch -/

theorem fetch_ok {s : State} (h : s.pc.toNat ≤ 0xFD) :
    fetch s = .ok { opc := s.memRead s.pc, a := s.memRead (s.pc + 1), b := s.memRead (s.pc + 2) } := by
  rw [fetch, if_neg (by simpa [fetchLimit] using h), State.pcPlus_eq, State.pcPlus_eq, State.pcPlus_eq]
  simp

theorem fetch_error {s : State} (h : 0xFD < s.pc.toNat) : fetch s = .error .outOfBoundsFetch := if_pos h

end Sys2Proof.Machine
end

