-- ==== Sys2Proof/Laws/Exec.lean ====
section
/-! SUPPORT. Everything each instruction can do, said once: its own effect, or the faults it raises. -/

namespace Sys2Proof.Machine

/-- CALL's re-read byte when it may push, in the terms of the claims (R120). -/
theorem callOperand_of_canPush {s : State} (h : s.CanPush) (r : Byte) : callOperand r s = s.reRead r := by
  have halias : (s.sp.toNat - 1 = s.pc.toNat + 1) ↔ s.regs[7].toNat = s.pc.toNat + 2 := by
    have h1 := h.1
    rw [State.sp_eq]
    omega
  simp only [callOperand, State.callAlias, s.pushOk_iff.2 h, halias, Bool.true_and, decide_eq_true_eq,
    State.reRead, State.returnAddress, State.pcPlus_eq]
  rfl

/-- With an SP that cannot push nothing is re-read (R120). -/
theorem callOperand_of_not_canPush {s : State} (h : ¬ s.CanPush) (r : Byte) : callOperand r s = r := by
  have hp : s.pushOk = false := by simpa using fun e => h (s.pushOk_iff.1 e)
  simp [callOperand, State.callAlias, hp]

/-- The return address as a byte sum. -/
theorem State.returnAddress_eq (s : State) : s.returnAddress = s.pc + 2 := s.pcPlus_eq 2

/-- The state after an instruction that completes, with the conditions under which it does. -/
def Effect (s t : State) : Instr → Prop
  | .hlt => t = s.halt
  | .ldi r imm => ∃ h : r.toNat < 8, s.pc.toNat ≤ 0xFC ∧ t = (s.writeReg ⟨r.toNat, h⟩ imm).setPc (s.pc + 3)
  | .prn r => ∃ h : r.toNat < 8, t = (s.emit (s.readReg ⟨r.toNat, h⟩)).setPc (s.pc + 2)
  | .push r => ∃ h : r.toNat < 8, s.CanPush ∧
      t = ((s.setSp (s.sp - 1)).memWrite (s.sp - 1) ((s.setSp (s.sp - 1)).readReg ⟨r.toNat, h⟩)).setPc (s.pc + 2)
  | .pop r => ∃ h : r.toNat < 8, s.CanPop ∧
      t = ((s.setSp (s.sp + 1)).writeReg ⟨r.toNat, h⟩ (s.memRead s.sp)).setPc (s.pc + 2)
  | .call r => ∃ h : (s.reRead r).toNat < 8, s.CanPush ∧
      t = ((s.setSp (s.sp - 1)).memWrite (s.sp - 1) (s.pc + 2)).setPc
        ((s.setSp (s.sp - 1)).readReg ⟨(s.reRead r).toNat, h⟩)
  | .ret => s.CanPop ∧ t = (s.setSp (s.sp + 1)).setPc (s.memRead s.sp)
  | .cmp ra rb => ∃ (h : ra.toNat < 8) (h' : rb.toNat < 8), s.pc.toNat ≤ 0xFC ∧
      t = (s.setFl (aluCompare (s.readReg ⟨ra.toNat, h⟩) (s.readReg ⟨rb.toNat, h'⟩))).setPc (s.pc + 3)
  | .jmp r => ∃ h : r.toNat < 8, t = s.setPc (s.readReg ⟨r.toNat, h⟩)
  | .jeq r => ∃ h : r.toNat < 8,
      t = s.setPc (if s.flagE = true then s.readReg ⟨r.toNat, h⟩ else s.pc + 2)
  | .jne r => ∃ h : r.toNat < 8,
      t = s.setPc (if s.flagE = false then s.readReg ⟨r.toNat, h⟩ else s.pc + 2)

/-- No instruction's own effect touches the fault record or STACK_FLOOR (R32, R35). -/
theorem Effect.record {s t : State} {i : Instr} (h : Effect s t i) :
    t.faultCause = s.faultCause ∧ t.faultPc = s.faultPc ∧ t.faultIr = s.faultIr ∧ t.stackFloor = s.stackFloor := by
  cases i with
  | hlt => rw [show t = _ from h]; exact ⟨rfl, rfl, rfl, rfl⟩
  | ldi => obtain ⟨-, -, rfl⟩ := h; exact ⟨rfl, rfl, rfl, rfl⟩
  | prn => obtain ⟨-, rfl⟩ := h; exact ⟨rfl, rfl, rfl, rfl⟩
  | push => obtain ⟨-, -, rfl⟩ := h; exact ⟨rfl, rfl, rfl, rfl⟩
  | pop => obtain ⟨-, -, rfl⟩ := h; exact ⟨rfl, rfl, rfl, rfl⟩
  | call => obtain ⟨-, -, rfl⟩ := h; exact ⟨rfl, rfl, rfl, rfl⟩
  | ret => obtain ⟨-, rfl⟩ := h; exact ⟨rfl, rfl, rfl, rfl⟩
  | cmp => obtain ⟨-, -, -, rfl⟩ := h; exact ⟨rfl, rfl, rfl, rfl⟩
  | jmp => obtain ⟨-, rfl⟩ := h; exact ⟨rfl, rfl, rfl, rfl⟩
  | jeq => obtain ⟨-, rfl⟩ := h; exact ⟨rfl, rfl, rfl, rfl⟩
  | jne => obtain ⟨-, rfl⟩ := h; exact ⟨rfl, rfl, rfl, rfl⟩

/-- RUN is kept by every instruction's own effect but HLT's (R31). -/
theorem Effect.run {s t : State} {i : Instr} (h : Effect s t i) : t.run = s.run ∨ (i = .hlt ∧ t = s.halt) := by
  cases i with
  | hlt => exact .inr ⟨rfl, h⟩
  | ldi => obtain ⟨-, -, rfl⟩ := h; exact .inl rfl
  | prn => obtain ⟨-, rfl⟩ := h; exact .inl rfl
  | push => obtain ⟨-, -, rfl⟩ := h; exact .inl rfl
  | pop => obtain ⟨-, -, rfl⟩ := h; exact .inl rfl
  | call => obtain ⟨-, -, rfl⟩ := h; exact .inl rfl
  | ret => obtain ⟨-, rfl⟩ := h; exact .inl rfl
  | cmp => obtain ⟨-, -, -, rfl⟩ := h; exact .inl rfl
  | jmp => obtain ⟨-, rfl⟩ := h; exact .inl rfl
  | jeq => obtain ⟨-, rfl⟩ := h; exact .inl rfl
  | jne => obtain ⟨-, rfl⟩ := h; exact .inl rfl

/-- Memory is kept by every instruction's own effect but the push of a PUSH or CALL (R41). -/
theorem Effect.mem {s t : State} {i : Instr} (h : Effect s t i) :
    t.mem = s.mem ∨ (s.CanPush ∧ ((∃ r, i = .push r) ∨ (∃ r, i = .call r)) ∧
      ∃ v, t.mem = s.mem.write (s.sp - 1).toNat v) := by
  cases i with
  | hlt => rw [show t = _ from h]; exact .inl rfl
  | ldi => obtain ⟨-, -, rfl⟩ := h; exact .inl rfl
  | prn => obtain ⟨-, rfl⟩ := h; exact .inl rfl
  | push => obtain ⟨-, hc, rfl⟩ := h; exact .inr ⟨hc, .inl ⟨_, rfl⟩, _, rfl⟩
  | pop => obtain ⟨-, -, rfl⟩ := h; exact .inl rfl
  | call => obtain ⟨-, hc, rfl⟩ := h; exact .inr ⟨hc, .inr ⟨_, rfl⟩, _, rfl⟩
  | ret => obtain ⟨-, rfl⟩ := h; exact .inl rfl
  | cmp => obtain ⟨-, -, -, rfl⟩ := h; exact .inl rfl
  | jmp => obtain ⟨-, rfl⟩ := h; exact .inl rfl
  | jeq => obtain ⟨-, rfl⟩ := h; exact .inl rfl
  | jne => obtain ⟨-, rfl⟩ := h; exact .inl rfl

/-- The faults an instruction raises once it is fetched, with what they tell of the state. -/
def Raises (s : State) (k : FaultKind) : Instr → Prop
  | .hlt => False
  | .ldi _ _ => k = .invalidRegister ∨ (k = .outOfBoundsAdvance ∧ s.pc = 0xFD)
  | .prn _ => k = .invalidRegister
  | .push _ => k = .invalidRegister ∨ k = .outOfBoundsStack
  | .pop _ => k = .invalidRegister ∨ k = .outOfBoundsStack
  | .call _ => k = .invalidRegister ∨ k = .outOfBoundsStack
  | .ret => k = .outOfBoundsStack
  | .cmp _ _ => k = .invalidRegister ∨ (k = .outOfBoundsAdvance ∧ s.pc = 0xFD)
  | .jmp _ => k = .invalidRegister
  | .jeq _ => k = .invalidRegister
  | .jne _ => k = .invalidRegister

/-- A three-byte advance: it fits, or the instruction is at 0xFD. -/
theorem seqPc_three_cases {s : State} (h : s.pc.toNat ≤ 0xFD) :
    (s.pc.toNat ≤ 0xFC ∧ seqPc 3 s = .ok (s.pc + 3)) ∨ (s.pc = 0xFD ∧ seqPc 3 s = .error .outOfBoundsAdvance) := by
  by_cases hp : s.pc.toNat ≤ 0xFC
  · exact .inl ⟨hp, seqPc_three hp⟩
  · exact .inr ⟨BitVec.eq_of_toNat_eq (by simp; omega), seqPc_error (by omega)⟩

/-- Where a conditional branch that could be fetched goes. -/
theorem branchTarget_eq {s : State} (h : s.pc.toNat ≤ 0xFD) (taken : Bool) (i : RegIx) :
    branchTarget taken i s = .ok (if taken = true then s.readReg i else s.pc + 2) := by
  cases taken
  · exact seqPc_two h
  · rfl

/-- What an instruction's handler computes: its effect or one of its faults. -/
def HandlerSpec (i : Instr) (s : State) (r : Except FaultKind State) : Prop :=
  (∃ t, r = .ok t ∧ Effect s t i) ∨ (∃ k, r = .error k ∧ Raises s k i)

/-- The meaning of every instruction is a run of a handler that meets `HandlerSpec` wherever it can be fetched. -/
theorem exec_eq_perform (i : Instr) (s : State) :
    ∃ r, exec i s = perform (opcodeOf i) s r ∧ (s.pc.toNat ≤ 0xFD → HandlerSpec i s r) := by
  cases i with
  | hlt => exact ⟨_, rfl, fun _ => .inl ⟨_, rfl, rfl⟩⟩
  | ldi r imm =>
    refine ⟨_, rfl, fun hp => ?_⟩
    rcases regOperand_cases r with ⟨h, e⟩ | ⟨-, e⟩ <;> rw [e]
    · rcases seqPc_three_cases hp with ⟨hp', e'⟩ | ⟨hp', e'⟩ <;> rw [e']
      · exact .inl ⟨_, rfl, h, hp', rfl⟩
      · exact .inr ⟨_, rfl, .inr ⟨rfl, hp'⟩⟩
    · exact .inr ⟨_, rfl, .inl rfl⟩
  | prn r =>
    refine ⟨_, rfl, fun hp => ?_⟩
    rcases regOperand_cases r with ⟨h, e⟩ | ⟨-, e⟩ <;> rw [e]
    · rw [seqPc_two hp]
      exact .inl ⟨_, rfl, h, rfl⟩
    · exact .inr ⟨_, rfl, rfl⟩
  | push r =>
    refine ⟨_, rfl, fun hp => ?_⟩
    rcases regOperand_cases r with ⟨h, e⟩ | ⟨-, e⟩ <;> rw [e]
    · rcases openSlot_cases s with ⟨hc, e'⟩ | ⟨-, e'⟩ <;> rw [e']
      · rw [seqPc_two hp]
        exact .inl ⟨_, rfl, h, hc, by rw [State.sp_setSp]⟩
      · exact .inr ⟨_, rfl, .inr rfl⟩
    · exact .inr ⟨_, rfl, .inl rfl⟩
  | pop r =>
    refine ⟨_, rfl, fun hp => ?_⟩
    rcases regOperand_cases r with ⟨h, e⟩ | ⟨-, e⟩ <;> rw [e]
    · rcases stackPop_cases s with ⟨hc, e'⟩ | ⟨-, e'⟩ <;> rw [e']
      · rw [seqPc_two hp]
        exact .inl ⟨_, rfl, h, hc, rfl⟩
      · exact .inr ⟨_, rfl, .inr rfl⟩
    · exact .inr ⟨_, rfl, .inl rfl⟩
  | call r =>
    refine ⟨_, rfl, fun hp => ?_⟩
    rcases regOperand_cases (callOperand r s) with ⟨h, e⟩ | ⟨-, e⟩ <;> rw [e]
    · rcases stackPush_cases s.returnAddress s with ⟨hc, e'⟩ | ⟨-, e'⟩ <;> rw [e']
      · simp only [callOperand_of_canPush hc] at h ⊢
        exact .inl ⟨_, rfl, h, hc, by rw [State.returnAddress_eq]; rfl⟩
      · exact .inr ⟨_, rfl, .inr rfl⟩
    · exact .inr ⟨_, rfl, .inl rfl⟩
  | ret =>
    refine ⟨_, rfl, fun hp => ?_⟩
    rcases stackPop_cases s with ⟨hc, e'⟩ | ⟨-, e'⟩ <;> rw [e']
    · exact .inl ⟨_, rfl, hc, rfl⟩
    · exact .inr ⟨_, rfl, rfl⟩
  | cmp ra rb =>
    refine ⟨_, rfl, fun hp => ?_⟩
    rcases regOperand_cases ra with ⟨h, e⟩ | ⟨-, e⟩ <;> rw [e]
    · rcases regOperand_cases rb with ⟨h', e'⟩ | ⟨-, e'⟩ <;> rw [e']
      · rcases seqPc_three_cases hp with ⟨hp', e''⟩ | ⟨hp', e''⟩ <;> rw [e'']
        · exact .inl ⟨_, rfl, h, h', hp', rfl⟩
        · exact .inr ⟨_, rfl, .inr ⟨rfl, hp'⟩⟩
      · exact .inr ⟨_, rfl, .inl rfl⟩
    · exact .inr ⟨_, rfl, .inl rfl⟩
  | jmp r =>
    refine ⟨_, rfl, fun hp => ?_⟩
    rcases regOperand_cases r with ⟨h, e⟩ | ⟨-, e⟩ <;> rw [e]
    · exact .inl ⟨_, rfl, h, rfl⟩
    · exact .inr ⟨_, rfl, rfl⟩
  | jeq r =>
    refine ⟨_, rfl, fun hp => ?_⟩
    rcases regOperand_cases r with ⟨h, e⟩ | ⟨-, e⟩ <;> rw [e]
    · simp only [branchTarget_eq hp]
      exact .inl ⟨_, rfl, h, rfl⟩
    · exact .inr ⟨_, rfl, rfl⟩
  | jne r =>
    refine ⟨_, rfl, fun hp => ?_⟩
    rcases regOperand_cases r with ⟨h, e⟩ | ⟨-, e⟩ <;> rw [e]
    · simp only [branchTarget_eq hp]
      exact .inl ⟨_, rfl, h, by simp only [Bool.not_eq_true']⟩
    · exact .inr ⟨_, rfl, rfl⟩

/-- The inversion of `exec`: stopped, past the fetch limit, the instruction's effect, or one of its faults. -/
theorem exec_cases {i : Instr} {s t : State} (h : exec i s = .next t) :
    (s.run = false ∧ t = s) ∨
      (s.run = true ∧ 0xFD < s.pc.toNat ∧ t = s.faulted 3 0x00) ∨
      (s.Ready ∧ Effect s t i) ∨
      (s.Ready ∧ ∃ k, Raises s k i ∧ t = s.faulted (faultCode k) (faultIrOf k (opcodeOf i))) := by
  obtain ⟨r, e, hspec⟩ := exec_eq_perform i s
  rw [e] at h
  rcases perform_cases h with h | h | ⟨hr, hok⟩ | ⟨hr, k, hk, ht⟩
  · exact .inl h
  · exact .inr (.inl h)
  · rcases hspec hr.2 with ⟨u, hu, heff⟩ | ⟨k', hk', -⟩
    · rw [hok] at hu
      cases hu
      exact .inr (.inr (.inl ⟨hr, heff⟩))
    · rw [hok] at hk'
      cases hk'
  · rcases hspec hr.2 with ⟨u, hu, -⟩ | ⟨k', hk', hraise⟩
    · rw [hk] at hu
      cases hu
    · rw [hk] at hk'
      cases hk'
      exact .inr (.inr (.inr ⟨hr, k, hraise, ht⟩))

/-- Every instruction answers a next state in every state (R85). -/
theorem exec_total (i : Instr) (s : State) : ∃ t, exec i s = .next t := by
  obtain ⟨r, e, -⟩ := exec_eq_perform i s
  rw [e]
  exact perform_total _ _ _

end Sys2Proof.Machine
end

