-- ==== Sys2Proof/Laws/PerInstr.lean ====
section
/-! SUPPORT. The per-instruction family: an instruction's encoding is as long as its opcode byte tells
(30_encoding.md R62, R63). -/

namespace Sys2Proof.Laws.LengthFromOpcode

/-- The encoding has 1 + opcode[7:6] bytes, the opcode byte first. -/
def Statement (i : Instr) : Prop :=
  (encode i).length = lengthFromOpcode (opcodeOf i) ∧ (encode i).head? = some (opcodeOf i)

theorem hlt : Statement .hlt := ⟨show 1 = lengthFromOpcode opcHlt by decide, rfl⟩
theorem ldi (r imm : Byte) : Statement (.ldi r imm) := ⟨show 3 = lengthFromOpcode opcLdi by decide, rfl⟩
theorem prn (r : Byte) : Statement (.prn r) := ⟨show 2 = lengthFromOpcode opcPrn by decide, rfl⟩
theorem push (r : Byte) : Statement (.push r) := ⟨show 2 = lengthFromOpcode opcPush by decide, rfl⟩
theorem pop (r : Byte) : Statement (.pop r) := ⟨show 2 = lengthFromOpcode opcPop by decide, rfl⟩
theorem call (r : Byte) : Statement (.call r) := ⟨show 2 = lengthFromOpcode opcCall by decide, rfl⟩
theorem ret : Statement .ret := ⟨show 1 = lengthFromOpcode opcRet by decide, rfl⟩
theorem cmp (ra rb : Byte) : Statement (.cmp ra rb) := ⟨show 3 = lengthFromOpcode opcCmp by decide, rfl⟩
theorem jmp (r : Byte) : Statement (.jmp r) := ⟨show 2 = lengthFromOpcode opcJmp by decide, rfl⟩
theorem jeq (r : Byte) : Statement (.jeq r) := ⟨show 2 = lengthFromOpcode opcJeq by decide, rfl⟩
theorem jne (r : Byte) : Statement (.jne r) := ⟨show 2 = lengthFromOpcode opcJne by decide, rfl⟩

end Sys2Proof.Laws.LengthFromOpcode
end

