-- ==== Sys2Proof/Laws/Step.lean ====
section
/-! SUPPORT. Everything one step can do, said once. -/

namespace Sys2Proof.Machine

/-- A stopped core's step. -/
theorem step_stopped {s : State} (h : s.run = false) : step s = .next s := if_pos h

/-- A running core's step past the fetch limit. -/
theorem step_unfetchable {s : State} (h : s.run = true) (hp : 0xFD < s.pc.toNat) :
    step s = .next (s.faulted 3 0x00) := by
  simp only [step, h, fetch_error hp, Bool.true_eq_false, if_false]
  rfl

/-- A ready core's step, in terms of the three bytes decoded. -/
theorem step_ready {s : State} (h : s.Ready) :
    step s = match decode (s.memRead s.pc) (s.memRead (s.pc + 1)) (s.memRead (s.pc + 2)) with
      | .error _ => .next (s.takeFault .unsupportedOpcode (s.memRead s.pc))
      | .ok i => exec i s := by
  have e := fetch_ok h.2
  unfold step
  generalize fetch s = x at e
  subst e
  exact if_neg (by simp [h.1])

/-- Every opcode byte of the map decodes, to an instruction with that opcode. -/
theorem decode_of_mem {opc : Byte} (a b : Byte) (h : opc ∈ opcodeBytes) :
    ∃ i, opcodeOf i = opc ∧ decode opc a b = .ok i := by
  rcases decode_cases opc a b with ⟨e, d⟩ | ⟨e, d⟩ | ⟨e, d⟩ | ⟨e, d⟩ | ⟨e, d⟩ | ⟨e, d⟩ | ⟨e, d⟩ | ⟨e, d⟩ |
    ⟨e, d⟩ | ⟨e, d⟩ | ⟨e, d⟩ | ⟨e, d⟩
  on_goal 12 => exact absurd h e
  all_goals refine ⟨_, ?_, d⟩
  all_goals exact e.symm

/-- The inversion of a step: stopped, past the fetch limit, no such opcode, or the decoded instruction. -/
theorem step_cases {s t : State} (h : step s = .next t) :
    (s.run = false ∧ t = s) ∨
      (s.run = true ∧ 0xFD < s.pc.toNat ∧ t = s.faulted 3 0x00) ∨
      (s.Ready ∧ s.memRead s.pc ∉ opcodeBytes ∧ t = s.faulted 1 (s.memRead s.pc)) ∨
      (s.Ready ∧ ∃ i, opcodeOf i = s.memRead s.pc ∧
        decode (s.memRead s.pc) (s.memRead (s.pc + 1)) (s.memRead (s.pc + 2)) = .ok i ∧ exec i s = .next t) := by
  by_cases hr : s.run = true
  · by_cases hp : 0xFD < s.pc.toNat
    · rw [step_unfetchable hr hp] at h
      cases h
      exact .inr (.inl ⟨hr, hp, rfl⟩)
    · have hready : s.Ready := ⟨hr, by omega⟩
      rw [step_ready hready] at h
      by_cases hm : s.memRead s.pc ∈ opcodeBytes
      · obtain ⟨i, hi, hd⟩ := decode_of_mem (s.memRead (s.pc + 1)) (s.memRead (s.pc + 2)) hm
        rw [hd] at h
        exact .inr (.inr (.inr ⟨hready, i, hi, hd, h⟩))
      · rw [decode_error _ _ hm] at h
        cases h
        exact .inr (.inr (.inl ⟨hready, hm, rfl⟩))
  · have hr' : s.run = false := by simpa using hr
    rw [step_stopped hr'] at h
    cases h
    exact .inl ⟨hr', rfl⟩

end Sys2Proof.Machine
end

