-- ==== Sys2Proof/Tests/Slice0.lean ====
section
/-! SUPPORT. Tests on fixed values. Expected results are the spec's: its encoding tables (30_encoding.md R61, R66), its
worked examples and its vectors V<n> (95_test_vectors.md). Below them, for every obligation that has hypotheses, a
witness that meets them. -/

namespace Sys2Proof.Machine.Tests

/-- The next state, where there is one. -/
def after (r : Result) : Option State :=
  match r with
  | .next t => some t
  | .fault _ => none
  | .refused _ => none

/-- Reset, with bytes loaded from address `at0` and pc there. -/
def prog (at0 : Byte) (bytes : List Byte) : State := { State.reset.loadFrom at0.toNat bytes with pc := at0 }

/-- The fault record and the cleared RUN, as the spec's vectors write fault(cause, FAULT_PC, FAULT_IR). -/
def faultOf (r : Result) : Option (Bool × BitVec 3 × Byte × Byte) :=
  (after r).map fun t => (t.run, t.faultCause, t.faultPc, t.faultIr)

/-! ### WellFormed: an ill-formed term for each check -/

theorem test_wellFormed_refuses :
    wellFormed (.ldi 8 0) = false ∧ wellFormed (.prn 8) = false ∧ wellFormed (.push 255) = false ∧
      wellFormed (.pop 8) = false ∧ wellFormed (.call 9) = false ∧ wellFormed (.cmp 8 0) = false ∧
      wellFormed (.cmp 0 8) = false ∧ wellFormed (.jmp 16) = false ∧ wellFormed (.jeq 8) = false ∧
      wellFormed (.jne 0x80) = false := by decide

theorem test_wellFormed_accepts :
    wellFormed .hlt = true ∧ wellFormed .ret = true ∧ wellFormed (.ldi 7 255) = true ∧
      wellFormed (.cmp 7 7) = true ∧ wellFormed (.call 7) = true := by decide

/-! ### Decoding, words written bit by bit from R61 and R66 -/

theorem test_decode_hlt : decodeBytes [0b00000001, 0xFF, 0xFF] = .ok .hlt := rfl
theorem test_decode_ldi : decodeBytes [0b10000010, 0b00000000, 0b00001000] = .ok (.ldi 0 8) := rfl
theorem test_decode_prn : decodeBytes [0b01000111, 0b00000000, 0b00000001] = .ok (.prn 0) := rfl
theorem test_decode_push : decodeBytes [0b01000101, 0b00000111, 0x46] = .ok (.push 7) := rfl
theorem test_decode_pop : decodeBytes [0b01000110, 0b00000100, 0x00] = .ok (.pop 4) := rfl
theorem test_decode_call : decodeBytes [0b01010000, 0b00000001, 0x47] = .ok (.call 1) := rfl
theorem test_decode_ret : decodeBytes [0b00010001, 0x08, 0x09] = .ok .ret := rfl
theorem test_decode_cmp : decodeBytes [0b10100111, 0b00000001, 0b00000110] = .ok (.cmp 1 6) := rfl
theorem test_decode_jmp : decodeBytes [0b01010100, 0b00000010, 0x00] = .ok (.jmp 2) := rfl
theorem test_decode_jeq : decodeBytes [0b01010101, 0b00000011, 0x47] = .ok (.jeq 3) := rfl
theorem test_decode_jne : decodeBytes [0b01010110, 0b00000010, 0x47] = .ok (.jne 2) := rfl

/-- 0x00, 0xFF, 0x02, 0x83 and 0xA0 are no opcodes (R67; V1 to V5); an operand byte above 7 is not refused by the
decoder, nor masked (R64). -/
theorem test_decode_rejects :
    decodeBytes [0x00, 0, 0] = .error (.unsupportedOpcode 0x00) ∧
      decodeBytes [0xFF, 0, 0] = .error (.unsupportedOpcode 0xFF) ∧
      decodeBytes [0x02, 0, 0] = .error (.unsupportedOpcode 0x02) ∧
      decodeBytes [0x83, 0, 8] = .error (.unsupportedOpcode 0x83) ∧
      decodeBytes [0xA0, 0, 1] = .error (.unsupportedOpcode 0xA0) ∧
      decodeBytes [0x01] = .error .fewerThanThreeBytes ∧
      decodeBytes [0x82, 0xFF, 1] = .ok (.ldi 0xFF 1) := ⟨rfl, rfl, rfl, rfl, rfl, rfl, rfl⟩

/-- The table's numbering puts the first byte lowest. -/
theorem test_decodeTableWord : decodeTableWord 24 0x08_05_82 = some (.ldi 5 8) ∧
    decodeTableWord 8 0x08_05_A7 = some (.cmp 0 0) ∧ decodeTableWord 8 0 = none := by decide

/-- The eleven opcode bytes are pairwise different (R66, D1). -/
theorem test_opcodes_distinct : opcodeBytes.Nodup ∧ opcodeBytes.length = 11 := by decide

/-! ### One step of each instruction: the spec's vectors -/

/-- V31: HLT keeps pc, FL and R7. -/
theorem test_hlt_v31 : after (step { (prog 0x20 [0x01, 0x82, 0x00]).writeReg 7 0xE0 with fl := 0x02 }) =
    some { (prog 0x20 [0x01, 0x82, 0x00]).writeReg 7 0xE0 with fl := 0x02, run := false } := by decide
/-- V8: 0xFD is the highest address an instruction can occupy. -/
theorem test_hlt_v8 : (after (step (prog 0xFD [0x01, 0xAA, 0xBB]))).map (fun t => (t.run, t.pc, t.faultCause)) =
    some (false, 0xFD, 0) := by decide
/-- V36: LDI R7,0xFF is legal at the write. -/
theorem test_ldi_v36 : (after (step (prog 0 [0x82, 0x07, 0xFF]))).map (fun t => (t.sp, t.pc, t.fl, t.run)) =
    some (0xFF, 0x03, 0x01, true) := by decide
/-- V12: LDI at 0xFC completes. -/
theorem test_ldi_v12 : (after (step (prog 0xFC [0x82, 0x00, 0x05]))).map (fun t => (t.readReg 0, t.pc)) =
    some (0x05, 0xFF) := by decide
/-- V38: PRN R7 shows the stack pointer. -/
theorem test_prn_v38 : (after (step (prog 0 [0x47, 0x07, 0x00]))).map (fun t => (t.out, t.pc)) =
    some ([0xF4], 0x02) := by decide
/-- V9, after an earlier output: the byte is appended last. -/
theorem test_prn_v9 : (after (step { (prog 0xFD [0x47, 0x00, 0xBB]).writeReg 0 0x11 with out := [9] })).map
    (fun t => (t.out, t.pc)) = some ([9, 0x11], 0xFF) := by decide
/-- V52: PUSH R7 stores the decremented SP. -/
theorem test_push_v52 : (after (step (prog 0 [0x45, 0x07, 0x00]))).map (fun t => (t.sp, t.memRead 0xF3, t.pc)) =
    some (0xF3, 0xF3, 0x02) := by decide
/-- V57: the push overwrites its own operand byte after it was used. -/
theorem test_push_v57 : (after (step (((prog 0x10 [0x45, 0x00]).writeReg 7 0x12).writeReg 0 0x01))).map
    (fun t => (t.sp, t.memRead 0x11, t.pc)) = some (0x11, 0x01, 0x12) := by decide
/-- V63: POP R7 ends with the popped byte. -/
theorem test_pop_v63 : (after (step (((prog 0 [0x46, 0x07]).writeReg 7 0xF3).memWrite 0xF3 0xAA))).map
    (fun t => (t.sp, t.pc)) = some (0xAA, 0x02) := by decide
/-- V64: the cell at 0x00 is the POP's own opcode byte. -/
theorem test_pop_v64 : (after (step ((prog 0 [0x46, 0x01]).writeReg 7 0x00))).map
    (fun t => (t.readReg 1, t.sp, t.pc)) = some (0x46, 0x01, 0x02) := by decide
/-- V87: the push lands on the CALL's operand byte, and the byte re-read names R5. -/
theorem test_call_v87 : (after (step ((((prog 3 [0x50, 0x00]).writeReg 7 5).writeReg 0 0x10).writeReg 5 0x40))).map
    (fun t => (t.sp, t.memRead 4, t.pc)) = some (4, 5, 0x40) := by decide
/-- V82: CALL R7 jumps to the decremented SP. -/
theorem test_call_v82 : (after (step (prog 0 [0x50, 0x07]))).map (fun t => (t.sp, t.memRead 0xF3, t.pc)) =
    some (0xF3, 0x02, 0xF3) := by decide
/-- V93: RET ignores its trailing bytes. -/
theorem test_ret_v93 : (after (step (((prog 0x10 [0x11, 0x08, 0x09]).writeReg 7 0xF3).memWrite 0xF3 0x20))).map
    (fun t => (t.pc, t.sp)) = some (0x20, 0xF4) := by decide
/-- V92: RET may go to 0xFE. -/
theorem test_ret_v92 : (after (step (((prog 0x10 [0x11]).writeReg 7 0xF3).memWrite 0xF3 0xFE))).map
    (fun t => (t.pc, t.sp, t.run)) = some (0xFE, 0xF4, true) := by decide
/-- V103: CMP is unsigned. -/
theorem test_cmp_v103 : (after (step (((prog 0 [0xA7, 0x00, 0x01]).writeReg 0 0xFF).writeReg 1 0x01))).map
    (fun t => (t.fl, t.pc)) = some (0x02, 0x03) := by decide
/-- V106: the old flags are replaced. -/
theorem test_cmp_v106 : (after (step { prog 0 [0xA7, 0x00, 0x01] with fl := 0x04 })).map (fun t => (t.fl, t.pc)) =
    some (0x01, 0x03) := by decide
/-- V122: JMP may go to 0xFE. -/
theorem test_jmp_v122 : (after (step ((prog 0 [0x54, 0x00]).writeReg 0 0xFE))).map (fun t => (t.pc, t.run)) =
    some (0xFE, true) := by decide
/-- V123: JMP R7 jumps to the stack pointer's value. -/
theorem test_jmp_v123 : (after (step (prog 0 [0x54, 0x07]))).map (fun t => t.pc) = some 0xF4 := by decide
/-- V125: after reset JEQ is taken. -/
theorem test_jeq_v125 : (after (step ((prog 0 [0x55, 0x02]).writeReg 2 0x40))).map (fun t => t.pc) =
    some 0x40 := by decide
/-- V131: a JEQ not taken at 0xFD. -/
theorem test_jeq_v131 : (after (step { (prog 0xFD [0x55, 0x02, 0x00]).writeReg 2 0x40 with fl := 0x04 })).map
    (fun t => (t.pc, t.run)) = some (0xFF, true) := by decide
/-- V126: after reset JNE is not taken. -/
theorem test_jne_v126 : (after (step ((prog 0 [0x56, 0x02]).writeReg 2 0x40))).map (fun t => t.pc) =
    some 0x02 := by decide
/-- V133: JNE taken on G; the trailing byte is ignored and FL kept. -/
theorem test_jne_v133 : (after (step { (prog 0 [0x56, 0x02, 0xFF]).writeReg 2 0x09 with fl := 0x02 })).map
    (fun t => (t.pc, t.fl)) = some (0x09, 0x02) := by decide

/-! ### Faults: the spec's vectors, as fault(cause, FAULT_PC, FAULT_IR) -/

/-- V1, V6, V7, V10, V11: decode, fetch and advance. -/
theorem test_faults_front_end :
    [faultOf (step (prog 0 [])),
      faultOf (step (prog 0xFE [0x01, 0x00])),
      faultOf (step (prog 0xFF [0x01])),
      faultOf (step (prog 0xFD [0x82, 0x00, 0x05])),
      faultOf (step (prog 0xFD [0xA7, 0x00, 0x01]))] =
      [some (false, 1, 0x00, 0x00), some (false, 3, 0xFE, 0x00), some (false, 3, 0xFF, 0x00),
        some (false, 3, 0xFD, 0x82), some (false, 3, 0xFD, 0xA7)] := by
  decide
/-- V14, V16, V17, V21, V22: the operand check, unmasked, taken or not, before the stack and the advance. -/
theorem test_faults_operand :
    [faultOf (step (prog 0 [0x82, 0xFF, 0x01])),
      faultOf (step (prog 0 [0xA7, 0x09, 0x0A])),
      faultOf (step (prog 0 [0x56, 0x10, 0x00])),
      faultOf (step ((prog 0xFD [0x45, 0x08, 0x00]).writeReg 7 0)),
      faultOf (step (prog 0xFD [0x82, 0x09, 0x00]))] =
      [some (false, 4, 0x00, 0x82), some (false, 4, 0x00, 0xA7), some (false, 4, 0x00, 0x56),
        some (false, 4, 0xFD, 0x45), some (false, 4, 0xFD, 0x82)] := by decide
/-- V54, V55, V62, V66, V91, and with STACK_FLOOR = 0x10 V59 and V67: the stack's guards. -/
theorem test_faults_stack :
    [faultOf (step ((prog 0x10 [0x45, 0x00]).writeReg 7 0x00)),
      faultOf (step ((prog 0x10 [0x45, 0x00]).writeReg 7 0xF5)),
      faultOf (step (prog 0 [0x46, 0x00])),
      faultOf (step ((prog 0 [0x46, 0x01]).writeReg 7 0xFF)),
      faultOf (step (prog 0 [0x11])),
      faultOf (step { (prog 3 [0x45, 0x00]).writeReg 7 0x10 with stackFloor := 0x10 }),
      faultOf (step { (prog 0 [0x46, 0x01]).writeReg 7 0x0F with stackFloor := 0x10 })] =
      [some (false, 3, 0x10, 0x45), some (false, 3, 0x10, 0x45), some (false, 3, 0x00, 0x46),
        some (false, 3, 0x00, 0x46), some (false, 3, 0x00, 0x11), some (false, 3, 0x03, 0x45), some (false, 3, 0x00, 0x46)] := by decide
/-- V83, V84, V85, V88: CALL's faults, and that nothing is written. -/
theorem test_faults_call :
    after (step (prog 0 [0x50, 0x08])) = some ((prog 0 [0x50, 0x08]).faulted 4 0x50) ∧
      faultOf (step ((prog 3 [0x50, 0x01]).writeReg 7 0x00)) = some (false, 3, 0x03, 0x50) ∧
      faultOf (step ((prog 3 [0x50, 0x09]).writeReg 7 0x00)) = some (false, 4, 0x03, 0x50) ∧
      after (step ((prog 6 [0x50, 0x00]).writeReg 7 0x08)) =
        some (((prog 6 [0x50, 0x00]).writeReg 7 0x08).faulted 4 0x50) := by decide

/-- The word the host places is what the next step runs, at reset and from a halted core (R80, R81). -/
theorem test_withFetchWord :
    after (step (State.reset.withFetchWord 24 0x08_05_82)) =
        some ((State.reset.withFetchWord 24 0x08_05_82).writeReg 5 8 |>.setPc 3) ∧
      (after (step (State.reset.halt.withFetchWord 8 0x01))).map (fun t => t.run) = some false := by decide

/-! ### Witnesses: concrete states and operands that meet an obligation's hypotheses -/

/-- Reset with 0x10 pushed: both a push and a pop are legal. -/
def deep : State := (State.reset.writeReg 7 0xF3).memWrite 0xF3 0x10

theorem witness_StepKeepsInvariant :
    (prog 0 [0x45, 0x07]).Inv ∧ (∃ t, step (prog 0 [0x45, 0x07]) = .next t) ∧
      (State.reset.faulted 1 0x00).Inv ∧ (∃ t, step (State.reset.faulted 1 0x00) = .next t) :=
  ⟨⟨by decide, by decide, by decide, by decide, by decide⟩, ⟨_, rfl⟩,
    ⟨by decide, by decide, by decide, by decide, by decide⟩, ⟨_, rfl⟩⟩

theorem witness_BootLoadsProgram :
    ([] : List Byte).length ≤ 256 ∧ (List.replicate 256 (0x01 : Byte)).length ≤ 256 ∧
      State.reset.stackFloor.toNat < 0xF4 ∧ 256 < (List.replicate 257 (0x01 : Byte)).length :=
  ⟨by decide, by rw [List.length_replicate], by decide, by rw [List.length_replicate]; decide⟩

/-- No image, and one byte too many. -/
theorem witness_LoadFailureLeavesResetState :
    (∀ image ∈ (none : Option (List Byte)), 256 < image.length) ∧
      (∀ image ∈ some (List.replicate 257 (0x01 : Byte)), 256 < image.length) := by
  refine ⟨nofun, ?_⟩
  rintro _ ⟨⟩
  rw [List.length_replicate]
  decide

/-- R181, R183: an empty image is released, and its first step finds 0x00, which is no opcode. -/
theorem test_boot_empty_image :
    (prog 0x40 [0x01]).boot (some []) = .released State.reset ∧
      ((prog 0x40 [0x01]).boot (some [])).firstStep = some (.next (State.reset.faulted 1 0x00)) := ⟨rfl, rfl⟩

theorem witness_StepRunsDecodedInstruction :
    (prog 0xFD [0xA7, 0x00, 0x01]).Ready ∧
      decodeBytes [(prog 0xFD [0xA7, 0x00, 0x01]).memRead 0xFD, (prog 0xFD [0xA7, 0x00, 0x01]).memRead (0xFD + 1),
        (prog 0xFD [0xA7, 0x00, 0x01]).memRead (0xFD + 2)] = .ok (.cmp 0 1) :=
  ⟨by decide, rfl⟩

theorem witness_FetchPastTopFaults :
    (prog 0xFE []).run = true ∧ 0xFD < (prog 0xFE []).pc.toNat ∧ 0xFD < (prog 0xFF []).pc.toNat := by decide

theorem witness_UnsupportedOpcodeFaults :
    (prog 0xFD [0xFF]).Ready ∧ (prog 0xFD [0xFF]).memRead (prog 0xFD [0xFF]).pc ∉
      [(0x01 : Byte), 0x82, 0x47, 0x45, 0x46, 0x50, 0x11, 0xA7, 0x54, 0x55, 0x56] := by decide

/-- A stopped core; a running one at a HLT, at a fault, and at neither. -/
theorem witness_RunningFlagGovernsSteps :
    State.reset.halt.run = false ∧
      ((prog 0xFD [0x01]).Running ∧ (prog 0xFD [0x01]).memRead 0xFD = 0x01) ∧
      ((prog 0 []).Running ∧ (after (step (prog 0 []))).map (fun t => t.faultCause) = some 1) ∧
      ((prog 0 [0x54]).Running ∧ (after (step (prog 0 [0x54]))).map (fun t => t.run) = some true) := by decide

/-- Each of the three ways occurs. -/
theorem witness_StepEndsInOneOfThreeWays :
    (prog 0 [0x01]).Running ∧ (after (step (prog 0 [0x54]))).map (fun t => (t.run, t.faultCause)) = some (true, 0) ∧
      (after (step (prog 0 [0x01]))).map (fun t => (t.run, t.faultCause)) = some (false, 0) ∧
      (after (step (prog 0 []))).map (fun t => (t.run, t.faultCause)) = some (false, 1) := by decide

/-- Ready, at the lowest and at the highest pc: HLT, PRN, JMP, JEQ, JNE (with R7 and R0 as operands). -/
theorem witness_results_ready :
    (prog 0 []).Ready ∧ (prog 0xFD []).Ready ∧ (7 : Byte).toNat < 8 ∧ (0 : Byte).toNat < 8 := by decide

/-- LDI and CMP at the highest pc that they complete at. -/
theorem witness_results_three_bytes :
    (prog 0xFC []).Ready ∧ (prog 0xFC []).pc.toNat ≤ 0xFC ∧ (7 : Byte).toNat < 8 ∧ (3 : Byte).toNat < 8 := by decide

/-- JEQ and JNE, both taken and not taken. -/
theorem witness_branch_conditions :
    State.reset.fl.getLsbD 0 = true ∧ ({ State.reset with fl := 0x04 }).fl.getLsbD 0 = false := by decide

/-- PUSH and CALL at both ends of SP's range. -/
theorem witness_PushResult :
    (7 : Byte).toNat < 8 ∧ State.reset.Ready ∧ State.reset.CanPush ∧ (State.reset.writeReg 7 0x01).Ready ∧
      (State.reset.writeReg 7 0x01).CanPush := by decide

/-- POP and RET at both ends of SP's range. -/
theorem witness_PopResult :
    (7 : Byte).toNat < 8 ∧ deep.Ready ∧ deep.CanPop ∧ (State.reset.writeReg 7 0x00).Ready ∧
      (State.reset.writeReg 7 0x00).CanPop := by decide

theorem witness_RetResult : deep.Ready ∧ deep.CanPop := by decide

/-- CALL with the fetched byte, with R7, and with the byte re-read after an aliasing push at the highest pc where that
byte names a register. -/
theorem witness_CallResult :
    (State.reset.Ready ∧ State.reset.CanPush ∧ (State.reset.reRead 3).toNat = (3 : Fin 8).val) ∧
      (State.reset.reRead 7).toNat = (7 : Fin 8).val ∧
      (((prog 5 []).writeReg 7 7).Ready ∧ ((prog 5 []).writeReg 7 7).CanPush ∧
        (((prog 5 []).writeReg 7 7).reRead 0).toNat = (7 : Fin 8).val) := by decide

theorem witness_InvalidRegisterFaults :
    (prog 0xFD []).Ready ∧ 8 ≤ (8 : Byte).toNat ∧ 8 ≤ (255 : Byte).toNat := by decide

theorem witness_CallInvalidRegisterFaults :
    (((prog 6 []).writeReg 7 8).Ready ∧ ((prog 6 []).writeReg 7 8).CanPush ∧
      8 ≤ (((prog 6 []).writeReg 7 8).reRead 0).toNat) ∧
    (State.reset.CanPush ∧ 8 ≤ (State.reset.reRead 8).toNat) ∧
    (((prog 3 []).writeReg 7 0).Ready ∧ ¬ ((prog 3 []).writeReg 7 0).CanPush ∧ 8 ≤ (9 : Byte).toNat) := by decide

/-- Just outside each end of each range. -/
theorem witness_StackOutOfBoundsFaults :
    State.reset.Ready ∧ (7 : Byte).toNat < 8 ∧ ¬ (State.reset.writeReg 7 0x00).CanPush ∧
      ¬ (State.reset.writeReg 7 0xF5).CanPush ∧ ¬ State.reset.CanPop ∧
      ¬ ({ State.reset.writeReg 7 0x0F with stackFloor := 0x10 }).CanPop := by decide

theorem witness_AdvanceOutOfBoundsFaults :
    (prog 0xFD []).run = true ∧ (prog 0xFD []).pc = 0xFD ∧ (7 : Byte).toNat < 8 ∧ (0 : Byte).toNat < 8 := by decide

/-- Every frame's instruction answers a next state, by its own effect and by a fault. -/
theorem witness_frames :
    (∃ t, exec .hlt State.reset = .next t) ∧ (∃ t, exec (.ldi 3 9) State.reset = .next t) ∧
      (∃ t, exec (.ldi 8 9) State.reset = .next t) ∧ (∃ t, exec (.prn 7) State.reset = .next t) ∧
      (∃ t, exec (.cmp 0 7) State.reset = .next t) ∧ (∃ t, exec (.jmp 1) State.reset = .next t) ∧
      (∃ t, exec (.jeq 1) State.reset = .next t) ∧ (∃ t, exec (.jne 1) State.reset = .next t) ∧
      (∃ t, exec (.push 7) State.reset = .next t) ∧ (∃ t, exec (.call 7) State.reset = .next t) ∧
      (∃ t, exec (.pop 2) deep = .next t) ∧ (∃ t, exec .ret deep = .next t) ∧
      (∃ t, exec .ret State.reset = .next t) :=
  ⟨⟨_, rfl⟩, ⟨_, rfl⟩, ⟨_, rfl⟩, ⟨_, rfl⟩, ⟨_, rfl⟩, ⟨_, rfl⟩, ⟨_, rfl⟩, ⟨_, rfl⟩, ⟨_, rfl⟩, ⟨_, rfl⟩, ⟨_, rfl⟩,
    ⟨_, rfl⟩, ⟨_, rfl⟩⟩

/-- A stored byte and a byte beside it: the frame's two sides differ at 0xF3 and agree at 0xF2 and 0xF4. -/
theorem witness_PushCallFrame :
    (after (exec (.push 7) State.reset)).map (fun t => (t.memRead 0xF2, t.memRead 0xF3, t.memRead 0xF4)) =
      some (0, 0xF3, 0) ∧ (0xF2 : Byte) ≠ State.reset.sp - 1 ∧ (0xF4 : Byte) ≠ State.reset.sp - 1 := by decide

/-- Bytes that begin with an encoding, and HLT's encoding alone, which is too short to decode (assumption 22). -/
theorem witness_DecodeAgreesWithEncode : decodeBytes [0xA7, 0x01, 0xFF, 0x33] = .ok (.cmp 1 0xFF) ∧
    encode (.cmp 1 0xFF) = [0xA7, 0x01, 0xFF] ∧ decodeBytes [0x01] = .error .fewerThanThreeBytes := ⟨rfl, rfl, rfl⟩

theorem witness_TrailingBytesIgnored :
    (decode 0x11 1 2 = .ok .ret ∧ (encode .ret).length = 1) ∧
      (decode 0x50 1 2 = .ok (.call 1) ∧ (encode (.call 1)).length = 2) := ⟨⟨rfl, rfl⟩, rfl, rfl⟩

theorem witness_OpcodeByteAloneSelects :
    decode 0x55 1 2 = .ok (.jeq 1) ∧ decode 0x55 8 9 = .ok (.jeq 8) ∧ opcodeOf (.jeq 8) = opcodeOf (.jeq 1) :=
  ⟨rfl, rfl, rfl⟩

theorem witness_FlagsWrittenByCmpReadByBranches :
    (isCmp (.jeq 2) = false ∧ ∃ t, exec (.jeq 2) State.reset = .next t) ∧
      (∃ t, Completes (.cmp 0 7) State.reset t) ∧
      (readsFl (.jeq 2) = true ∧ (0xFF : Byte).getLsbD 0 = State.reset.fl.getLsbD 0) ∧
      (isCmp (.push 2) = false ∧ readsFl (.push 2) = false) :=
  ⟨⟨rfl, _, rfl⟩, ⟨_, by decide, rfl, rfl, rfl⟩, by decide, by decide⟩

/-- An ordinary register beside a PUSH; R7 beside an instruction that does not use the stack; a register that an
aliasing CALL does not name. -/
theorem witness_UnnamedRegisterIsUntouched :
    ((3 : Fin 8).val ∉ operandIndices State.reset (.push 0) ∧ usesStack (.push 0) = true ∧ (3 : Fin 8) ≠ 7) ∧
      ((7 : Fin 8).val ∉ operandIndices State.reset (.ldi 0 1) ∧ usesStack (.ldi 0 1) = false) ∧
      (0 : Fin 8).val ∉ operandIndices ((prog 3 []).writeReg 7 5) (.call 0) := by decide

theorem witness_StackFloorIsConstant : ∃ t, step (prog 0 [0x45, 0x07]) = .next t := ⟨_, rfl⟩

/-- Less (registers 0 and 7), greater (7 and 0), and equal (0 and 1). -/
theorem witness_AluCompareContract :
    State.reset.regs[(0 : Fin 8)] = State.reset.regs[(1 : Fin 8)] ∧
      aluRequest .compare 0 7 State.reset = .ok (State.reset.setFl 0x04) ∧
      aluRequest .compare 7 0 State.reset = .ok (State.reset.setFl 0x02) ∧
      aluRequest .compare 0 1 State.reset = .ok (State.reset.setFl 0x01) ∧
      State.reset.regs[(0 : Fin 8)].toNat < State.reset.regs[(7 : Fin 8)].toNat := ⟨rfl, rfl, rfl, rfl, by decide⟩

theorem witness_UnsupportedAluUnreachable :
    (∃ t, step (prog 0 [0xA7, 0x00, 0x01]) = .next t) ∧ (prog 0 [0xA7, 0x00, 0x01]).faultCause ≠ 2 :=
  ⟨⟨_, rfl⟩, by decide⟩

theorem witness_MemoryReadAfterWrite :
    deep.mem.wf = true ∧ (0xFF : Byte) ≠ 0x00 ∧ (List.replicate 256 (0x01 : Byte)).length ≤ 256 :=
  ⟨by decide, by decide, by rw [List.length_replicate]⟩

/-- The same cells written in two orders, one of them twice. -/
theorem witness_CanonicalMemoryIsUnique :
    (Memory.write (Memory.write [] 9 1) 3 2).wf = true ∧
      (Memory.write (Memory.write (Memory.write [] 3 7) 9 1) 3 2).wf = true ∧
      Memory.write (Memory.write [] 9 1) 3 2 = Memory.write (Memory.write (Memory.write [] 3 7) 9 1) 3 2 := by decide

theorem witness_OnlyPushAndCallWriteMemory :
    (∃ t, step (prog 0 [0x45, 0x07]) = .next t) ∧ (prog 0 [0x45, 0x07]).Ready ∧ (prog 0 [0x45, 0x07]).CanPush :=
  ⟨⟨_, rfl⟩, by decide, by decide⟩

/-- V58 and its neighbours: the push lands on the next fetch's first, second and third byte. -/
theorem witness_PushedByteIsFetched :
    (0 : Byte).toNat < 8 ∧ (0 : Byte).toNat ≠ 7 ∧ ((prog 0x10 []).writeReg 7 0x13).Ready ∧
      ((prog 0x10 []).writeReg 7 0x13).CanPush ∧ ((prog 0x10 []).writeReg 7 0x13).mem.wf = true ∧
      ((prog 0x10 []).writeReg 7 0x13).regs[7] - 1 = 0x12 ∧
      ((prog 0x10 []).writeReg 7 0x14).regs[7] - 1 = 0x12 + 1 ∧
      ((prog 0x10 []).writeReg 7 0x15).regs[7] - 1 = 0x12 + 2 := by decide

theorem witness_PcAdvanceTable :
    (∃ t, Completes .hlt State.reset t) ∧ (∃ t, Completes (.ldi 7 1) State.reset t) ∧
      (∃ t, Completes (.prn 7) State.reset t) ∧ (∃ t, Completes (.push 7) State.reset t) ∧
      (∃ t, Completes (.pop 7) deep t) ∧ (∃ t, Completes (.call 7) State.reset t) ∧
      (∃ t, Completes .ret deep t) ∧ (∃ t, Completes (.cmp 7 7) State.reset t) ∧
      (∃ t, Completes (.jmp 7) State.reset t) ∧ (∃ t, Completes (.jeq 7) State.reset t) ∧
      (∃ t, Completes (.jne 7) State.reset t) ∧ (∃ t, Completes (.jeq 7) { State.reset with fl := 0x02 } t) ∧
      (∃ t, Completes (.jne 7) { State.reset with fl := 0x02 } t) :=
  ⟨⟨_, by decide, rfl, rfl, rfl⟩, ⟨_, by decide, rfl, rfl, rfl⟩, ⟨_, by decide, rfl, rfl, rfl⟩,
    ⟨_, by decide, rfl, rfl, rfl⟩, ⟨_, by decide, rfl, rfl, rfl⟩, ⟨_, by decide, rfl, rfl, rfl⟩,
    ⟨_, by decide, rfl, rfl, rfl⟩, ⟨_, by decide, rfl, rfl, rfl⟩, ⟨_, by decide, rfl, rfl, rfl⟩,
    ⟨_, by decide, rfl, rfl, rfl⟩, ⟨_, by decide, rfl, rfl, rfl⟩, ⟨_, by decide, rfl, rfl, rfl⟩,
    ⟨_, by decide, rfl, rfl, rfl⟩⟩

/-- No push, three pushes, and as many as the range holds. -/
theorem witness_StackIsFullDescending :
    (∃ t, stackPush 9 State.reset = .ok t) ∧ (∃ t, stackPop deep = .ok (0x10, t)) ∧
      (State.reset.regs[7] = 0xF4 ∧ State.reset.mem.wf = true ∧
        State.reset.stackFloor.toNat + ([1, 2, 3] : List Byte).length ≤ 0xF4) ∧
      State.reset.stackFloor.toNat + (List.replicate 0xF4 (1 : Byte)).length ≤ 0xF4 :=
  ⟨⟨_, rfl⟩, ⟨_, rfl⟩, by decide, by rw [List.length_replicate]; decide⟩

/-- At the highest pc. -/
theorem witness_LdiThenPrn :
    (7 : Byte).toNat < 8 ∧ (prog 0xFA [0x82, 0x07, 0x2A, 0x47, 0x07]).run = true ∧
      (prog 0xFA [0x82, 0x07, 0x2A, 0x47, 0x07]).pc.toNat ≤ 0xFA ∧
      (prog 0xFA [0x82, 0x07, 0x2A, 0x47, 0x07]).memRead 0xFA = 0x82 ∧
      (prog 0xFA [0x82, 0x07, 0x2A, 0x47, 0x07]).memRead (0xFA + 1) = 7 ∧
      (prog 0xFA [0x82, 0x07, 0x2A, 0x47, 0x07]).memRead (0xFA + 2) = 0x2A ∧
      (prog 0xFA [0x82, 0x07, 0x2A, 0x47, 0x07]).memRead (0xFA + 3) = 0x47 ∧
      (prog 0xFA [0x82, 0x07, 0x2A, 0x47, 0x07]).memRead (0xFA + 4) = 7 := by decide

theorem witness_PushThenPop :
    (6 : Byte).toNat < 7 ∧ (0 : Byte).toNat < 7 ∧ (prog 0xFB []).run = true ∧ (prog 0xFB []).pc.toNat ≤ 0xFB ∧
      (prog 0xFB []).CanPush ∧ (prog 0xFB []).mem.wf = true := by decide

/-- The CALL's state, and a later state that finds SP and the top of the stack as the CALL left them. -/
theorem witness_CallThenReturn :
    (prog 3 []).Ready ∧ (prog 3 []).CanPush ∧ ((prog 3 []).reRead 1).toNat < 8 ∧ (prog 3 []).mem.wf = true ∧
      (after (exec (.call 1) (prog 3 []))).all (fun t =>
        decide (t.Ready ∧ t.regs[7] = 0xF3 ∧ t.memRead 0xF3 = 0x05)) = true := by decide

theorem witness_CompareThenBranch :
    (0 : Byte).toNat < 8 ∧ (7 : Byte).toNat < 8 ∧ (1 : Byte).toNat < 8 ∧ (prog 0xFA []).run = true ∧
      (prog 0xFA []).pc.toNat ≤ 0xFA ∧ State.reset.regs[0] = State.reset.regs[1] ∧
      State.reset.regs[0] ≠ State.reset.regs[7] := by decide

theorem witness_TransferToTopFaultsAtNextFetch :
    (2 : Byte).toNat < 8 ∧ (State.reset.writeReg 2 0xFE).Ready ∧
      0xFE ≤ ((State.reset.writeReg 2 0xFE).regs[2]).toNat ∧
      0xFE ≤ ((State.reset.writeReg 2 0xFF).regs[2]).toNat := by decide

theorem witness_TraceTupleAtFetch :
    (prog 0xFD []).Ready ∧ ¬ (prog 0xFE []).Ready ∧ ¬ State.reset.halt.Ready := by decide

end Sys2Proof.Machine.Tests
end

section
/-! SUPPORT. FL and the instructions (10_state.md R29): each operation's handler commutes with replacing FL, so the
instructions do. Settles O36. -/

namespace Sys2Proof.Machine

/-! ### Binds that commute with an update -/

/-- A bind commutes with `g` when its first part commutes with `f` and its second carries `f` over to `g`. -/
theorem bind_commute_map {ε α β : Type} {x x' : Except ε α} {k k' : α → Except ε β} {f : α → α}
    {g : β → β} (hx : x' = x.map f) (hk : ∀ a, k' (f a) = (k a).map g) : (x' >>= k') = (x >>= k).map g := by
  subst hx
  cases x with
  | error _ => rfl
  | ok a => exact hk a

/-- A bind on a value that is not updated commutes with `g` when its second part does. -/
theorem bind_commute {ε α β : Type} {x : Except ε α} {k k' : α → Except ε β} {g : β → β}
    (hk : ∀ a, k' a = (k a).map g) : (x >>= k') = (x >>= k).map g :=
  bind_commute_map (f := id) (by cases x <;> rfl) hk

/-! ### The operations with FL replaced -/

theorem openSlot_setFl (s : State) (f : Byte) : openSlot (s.setFl f) = (openSlot s).map (State.setFl · f) := by
  rcases openSlot_cases s with ⟨hc, e⟩ | ⟨hc, e⟩
  · rw [e, openSlot_ok (s := s.setFl f) hc]; rfl
  · rw [e, openSlot_error (s := s.setFl f) hc]; rfl

theorem stackPush_setFl (v : Byte) (s : State) (f : Byte) :
    stackPush v (s.setFl f) = (stackPush v s).map (State.setFl · f) :=
  bind_commute_map (openSlot_setFl s f) fun _ => rfl

theorem stackPop_setFl (s : State) (f : Byte) :
    stackPop (s.setFl f) = (stackPop s).map (Prod.map id (State.setFl · f)) := by
  rcases stackPop_cases s with ⟨hc, e⟩ | ⟨hc, e⟩
  · rw [e, stackPop_ok (s := s.setFl f) hc]; rfl
  · rw [e, stackPop_error (s := s.setFl f) hc]; rfl

/-- A handler that commutes with replacing FL runs the same with FL replaced. -/
theorem perform_setFl {opc f : Byte} {s : State} {r r' : Except FaultKind State} (hr : r' = r.map (State.setFl · f)) :
    perform opc (s.setFl f) r' = mapNext (State.setFl · f) (perform opc s r) :=
  perform_commute (g := (State.setFl · f)) rfl rfl opc (fun _ => rfl) hr

/-! ### The instructions -/

/-- No instruction's own effect but CMP's touches FL. -/
theorem Effect.fl {s t : State} {i : Instr} (hi : isCmp i = false) (h : Effect s t i) : t.fl = s.fl := by
  cases i with
  | hlt => rw [show t = _ from h]; rfl
  | ldi => obtain ⟨-, -, rfl⟩ := h; rfl
  | prn => obtain ⟨-, rfl⟩ := h; rfl
  | push => obtain ⟨-, -, rfl⟩ := h; rfl
  | pop => obtain ⟨-, -, rfl⟩ := h; rfl
  | call => obtain ⟨-, -, rfl⟩ := h; rfl
  | ret => obtain ⟨-, rfl⟩ := h; rfl
  | cmp => cases hi
  | jmp => obtain ⟨-, rfl⟩ := h; rfl
  | jeq => obtain ⟨-, rfl⟩ := h; rfl
  | jne => obtain ⟨-, rfl⟩ := h; rfl

/-- Whatever becomes of an instruction other than CMP, FL stays. -/
theorem exec_fl {i : Instr} {s t : State} (hi : isCmp i = false) (h : exec i s = .next t) : t.fl = s.fl := by
  rcases exec_cases h with ⟨-, rfl⟩ | ⟨-, -, rfl⟩ | ⟨-, heff⟩ | ⟨-, _, -, rfl⟩
  · rfl
  · rfl
  · exact heff.fl hi
  · rfl

/-- A handler whose run left no fault in a ready state computed the state after. -/
theorem handler_of_perform_clear {opc : Byte} {s t : State} {r : Except FaultKind State} (hs : s.Ready)
    (h : perform opc s r = .next t) (ht : t.faultCause = 0) : r = .ok t := by
  obtain ⟨hrun, hpc⟩ := hs
  rcases perform_cases h with ⟨hstop, -⟩ | ⟨-, hpast, -⟩ | ⟨-, hok⟩ | ⟨-, k, -, rfl⟩
  · simp [hrun] at hstop
  · omega
  · exact hok
  · exact absurd ht (faultCode_ne_zero k)

/-- A completed CMP forgets the old FL: its handler overwrites the whole byte, so with FL replaced it is the very same
one. -/
theorem exec_cmp_setFl {ra rb : Byte} {s t : State} (f : Byte) (h : Completes (.cmp ra rb) s t) :
    exec (.cmp ra rb) (s.setFl f) = .next t := by
  obtain ⟨hready, -, hexec, hclear⟩ := h
  obtain ⟨r, hr, hr'⟩ : ∃ r, exec (.cmp ra rb) s = perform opcCmp s r ∧
      exec (.cmp ra rb) (s.setFl f) = perform opcCmp (s.setFl f) r := ⟨_, rfl, rfl⟩
  rw [hr] at hexec
  rw [hr', handler_of_perform_clear hready hexec hclear]
  exact perform_ok (s := s.setFl f) hready opcCmp t

/-- An instruction other than CMP does the same with FL replaced, and keeps the byte; JEQ and JNE when the byte has the
same bit 0. -/
theorem exec_setFl {i : Instr} {s : State} {f : Byte} (hi : isCmp i = false)
    (hE : readsFl i = true → (s.setFl f).flagE = s.flagE) :
    exec i (s.setFl f) = mapNext (State.setFl · f) (exec i s) := by
  cases i with
  | hlt => exact perform_setFl (opc := opcHlt) (r := .ok s.halt) rfl
  | ldi => exact perform_setFl (bind_commute fun _ => bind_commute fun _ => rfl)
  | prn => exact perform_setFl (bind_commute fun _ => bind_commute fun _ => rfl)
  | push =>
    exact perform_setFl (bind_commute fun _ => bind_commute_map (openSlot_setFl s f) fun _ => bind_commute fun _ => rfl)
  | pop =>
    exact perform_setFl (bind_commute fun _ => bind_commute_map (stackPop_setFl s f) fun _ => bind_commute fun _ => rfl)
  | call => exact perform_setFl (bind_commute fun _ => bind_commute_map (stackPush_setFl _ s f) fun _ => rfl)
  | ret => exact perform_setFl (bind_commute_map (stackPop_setFl s f) fun _ => rfl)
  | cmp => cases hi
  | jmp => exact perform_setFl (bind_commute fun _ => rfl)
  | jeq =>
    refine perform_setFl (bind_commute fun _ => ?_)
    rw [hE rfl]
    exact bind_commute fun _ => rfl
  | jne =>
    refine perform_setFl (bind_commute fun _ => ?_)
    rw [hE rfl]
    exact bind_commute fun _ => rfl

/-- Settles O36: FL is kept by every effect but CMP's, overwritten whole by CMP's handler, and no other handler reads
more of it than bit 0, in JEQ and JNE. -/
theorem flagsWrittenByCmpReadByBranches : Obligations.FlagsWrittenByCmpReadByBranches :=
  ⟨fun _ _ _ => exec_fl, fun _ _ _ _ => exec_cmp_setFl, fun _ _ _ => exec_setFl⟩

end Sys2Proof.Machine
end

section
/-! SUPPORT. What memory reads after the loader's writes (20_memory.md R42): the image's bytes where it lies, the bytes
from before elsewhere. Settles O42. -/

namespace Sys2Proof.Machine

/-- Below the address a load begins at, every cell is as before. -/
theorem State.loadFrom_read_below {a : Nat} : ∀ (s : State) {k : Nat} (image : List Byte), a < k →
    (s.loadFrom k image).mem.read a = s.mem.read a
  | _, _, [], _ => rfl
  | s, _, v :: rest, ha => by
    rw [State.loadFrom, State.loadFrom_read_below _ rest (by omega)]
    exact Memory.read_write_ne v (by omega) s.mem

/-- From the address a load begins at, a cell holds the image's byte or, past the image, what it held before. -/
theorem State.loadFrom_read {a : Nat} : ∀ {s : State} {k : Nat} {image : List Byte}, s.mem.wf = true →
    k + image.length ≤ 256 → k ≤ a → (s.loadFrom k image).mem.read a = image.getD (a - k) (s.mem.read a)
  | _, _, [], _, _, _ => rfl
  | s, k, v :: rest, hm, hlen, hka => by
    rw [List.length_cons] at hlen
    rw [State.loadFrom]
    rcases hka.eq_or_lt with rfl | hlt
    · rw [State.loadFrom_read_below _ rest k.lt_succ_self, Nat.sub_self, List.getD_cons_zero]
      exact Memory.read_write_same v hm
    · rw [State.loadFrom_read (Memory.wf_write hm (by omega) v) (by omega) hlt,
        Memory.read_write_ne v (by omega), show a - k = a - (k + 1) + 1 by omega, List.getD_cons_succ]

/-- Settles O42: the read-after-write laws at a byte address, and the load's by induction over the image. -/
theorem memoryReadAfterWrite : Obligations.MemoryReadAfterWrite :=
  ⟨fun _ => rfl,
    fun s a v hm =>
      ⟨State.memRead_memWrite_same hm a v, fun _ hb => State.memRead_memWrite_ne s v hb, rfl⟩,
    fun _ _ a hm hlen => State.loadFrom_read hm (by omega) a.toNat.zero_le⟩

end Sys2Proof.Machine
end

section
/-! SUPPORT. The decoder answers exactly the instruction whose encoding begins the three bytes (30_encoding.md R60, R68,
R69). Settles O34 and O35. -/

namespace Sys2Proof

/-! ### The encoding's first byte and length -/

/-- The per-instruction encoding laws (R62, R63), for every instruction at once. -/
theorem Laws.LengthFromOpcode.statement : ∀ i : Instr, Statement i
  | .hlt => hlt
  | .ldi r imm => ldi r imm
  | .prn r => prn r
  | .push r => push r
  | .pop r => pop r
  | .call r => call r
  | .ret => ret
  | .cmp ra rb => cmp ra rb
  | .jmp r => jmp r
  | .jeq r => jeq r
  | .jne r => jne r

theorem encode_length (i : Instr) : (encode i).length = lengthFromOpcode (opcodeOf i) :=
  (Laws.LengthFromOpcode.statement i).1

theorem encode_head? (i : Instr) : (encode i).head? = some (opcodeOf i) :=
  (Laws.LengthFromOpcode.statement i).2

/-! ### The decoder through the encoder -/

/-- What the decoder answers, encoded again, begins the bytes decoded. -/
theorem encode_prefix_of_decode {opc a b : Byte} {i : Instr} (h : decode opc a b = .ok i) :
    encode i <+: [opc, a, b] := by
  rcases decode_cases opc a b with ⟨rfl, d⟩ | ⟨rfl, d⟩ | ⟨rfl, d⟩ | ⟨rfl, d⟩ | ⟨rfl, d⟩ | ⟨rfl, d⟩ | ⟨rfl, d⟩ |
    ⟨rfl, d⟩ | ⟨rfl, d⟩ | ⟨rfl, d⟩ | ⟨rfl, d⟩ | ⟨-, d⟩
  on_goal 12 => cases h.symm.trans d
  all_goals
    cases h.symm.trans d
    exact ⟨_, rfl⟩

/-- Bytes that begin with an instruction's encoding decode to it. -/
theorem decode_of_encode_prefix {opc a b : Byte} {i : Instr} (h : encode i <+: [opc, a, b]) :
    decode opc a b = .ok i := by
  obtain ⟨rest, h⟩ := h
  cases i <;> cases h <;> rfl

theorem decode_eq_ok_iff {opc a b : Byte} {i : Instr} : decode opc a b = .ok i ↔ encode i <+: [opc, a, b] :=
  ⟨encode_prefix_of_decode, decode_of_encode_prefix⟩

/-- The decoder reads no more bytes than the encoding of its answer has (R68). -/
theorem decode_congr {opc a b a' b' : Byte} {i : Instr} (h : decode opc a b = .ok i)
    (htake : [opc, a', b'].take (encode i).length = [opc, a, b].take (encode i).length) :
    decode opc a' b' = .ok i := by
  rw [decode_eq_ok_iff, List.prefix_iff_eq_take] at h ⊢
  exact h.trans htake.symm

/-- The opcode byte of the instruction answered is the one decoded (R69). -/
theorem opcodeOf_of_decode {opc a b : Byte} {i : Instr} (h : decode opc a b = .ok i) : opcodeOf i = opc := by
  obtain ⟨rest, hrest⟩ := encode_prefix_of_decode h
  have hhead : (encode i ++ rest).head? = some (opcodeOf i) := by rw [List.head?_append, encode_head?]; rfl
  rw [hrest] at hhead
  exact (Option.some.inj hhead).symm

theorem opcode_mem_of_decode {opc a b : Byte} {i : Instr} (h : decode opc a b = .ok i) : opc ∈ opcodeBytes := by
  by_contra hmem
  rw [decode_error a b hmem] at h
  cases h

namespace Machine

/-- Settles O34: the other bytes agree on as many as the encoding has. -/
theorem trailingBytesIgnored : Obligations.TrailingBytesIgnored := fun _ _ _ _ h =>
  ⟨fun hlen _ _ => decode_congr h (by rw [hlen]; rfl), fun hlen _ => decode_congr h (by rw [hlen]; rfl)⟩

/-- Settles O35: an opcode byte of the map decodes whatever the operand bytes are, the instruction has that opcode byte,
and the opcode byte tells the length. -/
theorem opcodeByteAloneSelects : Obligations.OpcodeByteAloneSelects := by
  intro opc a b i h
  have hi : opcodeOf i = opc := opcodeOf_of_decode h
  constructor
  · intro a' b'
    obtain ⟨i', hi', hdec⟩ := decode_of_mem a' b' (opcode_mem_of_decode h)
    have hop : opcodeOf i' = opcodeOf i := hi'.trans hi.symm
    exact ⟨i', hdec, hop, by rw [encode_length, encode_length, hop]⟩
  · intro opc' a' b' i' h' hop
    calc opc' = opcodeOf i' := (opcodeOf_of_decode h').symm
      _ = opcodeOf i := hop
      _ = opc := hi

end Machine

end Sys2Proof
end

section
/-! SUPPORT. RUN and a step (40_engine.md R80): a step always answers, and RUN falls by HLT's own effect or by fault
entry, never otherwise. Settles O8. -/

namespace Sys2Proof.Machine

/-- Every state has a next state (R85). -/
theorem step_total (s : State) : ∃ t, step s = .next t := by
  by_cases hrun : s.run = true
  · by_cases hpc : s.pc.toNat ≤ 0xFD
    · rw [step_ready ⟨hrun, hpc⟩]
      split
      · exact ⟨_, rfl⟩
      · exact exec_total _ s
    · exact ⟨_, step_unfetchable hrun (by omega)⟩
  · exact ⟨s, step_stopped (Bool.eq_false_iff.2 hrun)⟩

/-- HLT alone has its opcode byte (R66). -/
theorem opcodeOf_eq_opcHlt_iff {i : Instr} : opcodeOf i = opcHlt ↔ i = .hlt := by
  constructor
  · intro h
    cases i with
    | hlt => rfl
    | _ => cases h
  · rintro rfl
    rfl

/-- In a running core an instruction's own effect clears RUN exactly when the instruction is HLT (R31). -/
theorem Effect.run_eq_false_iff {s t : State} {i : Instr} (hrun : s.run = true) (h : Effect s t i) :
    t.run = false ↔ i = .hlt := by
  constructor
  · intro ht
    rcases h.run with hkept | ⟨hi, -⟩
    · simp [ht, hrun] at hkept
    · exact hi
  · rintro rfl
    rw [show t = s.halt from h, State.halt_run]

/-- After an instruction that could run, RUN is false exactly when it was HLT or took a fault. -/
theorem exec_run_eq_false_iff {i : Instr} {s t : State} (hready : s.Ready) (hclear : s.faultCause = 0)
    (h : exec i s = .next t) : t.run = false ↔ i = .hlt ∨ t.faultCause ≠ 0 := by
  obtain ⟨hrun, hpc⟩ := hready
  rcases exec_cases h with ⟨hstop, -⟩ | ⟨-, hpast, -⟩ | ⟨-, heff⟩ | ⟨-, k, -, rfl⟩
  · simp [hrun] at hstop
  · omega
  · have hkept : t.faultCause = 0 := heff.record.1.trans hclear
    simp [heff.run_eq_false_iff hrun, hkept]
  · exact iff_of_true rfl (.inr (faultCode_ne_zero k))

/-- After a running core's step, RUN is false exactly when the instruction fetched was HLT or a fault was taken. -/
theorem step_run_eq_false_iff {s t : State} (hs : s.Running) (h : step s = .next t) :
    t.run = false ↔ (s.pc.toNat ≤ 0xFD ∧ s.memRead s.pc = opcHlt) ∨ t.faultCause ≠ 0 := by
  obtain ⟨hrun, hclear⟩ := hs
  rcases step_cases h with ⟨hstop, -⟩ | ⟨-, -, rfl⟩ | ⟨-, -, rfl⟩ | ⟨hready, i, hi, -, hexec⟩
  · simp [hrun] at hstop
  · exact iff_of_true rfl (.inr (faultCode_ne_zero .outOfBoundsFetch))
  · exact iff_of_true rfl (.inr (faultCode_ne_zero .unsupportedOpcode))
  · rw [exec_run_eq_false_iff hready hclear hexec, ← hi, opcodeOf_eq_opcHlt_iff, and_iff_right hready.2]

/-- Settles O8: a stopped core's step is the identity; a running core's step answers, and RUN falls only as
`step_run_eq_false_iff` says. -/
theorem runningFlagGovernsSteps : Obligations.RunningFlagGovernsSteps := by
  refine ⟨fun _ => step_stopped, fun s hs => ?_⟩
  obtain ⟨t, ht⟩ := step_total s
  exact ⟨t, ht, step_run_eq_false_iff hs ht⟩

end Sys2Proof.Machine
end

section
/-! SUPPORT. The stack over pushes with no pop between them (42_stack.md R110): entries from just below the first SP
downwards, one byte each, and no other cell touched. Settles O47. -/

namespace Sys2Proof.Machine

/-! ### What pushes leave -/

/-- From `s` to `t` SP went down past the bytes `vs`, which lie in push order at the addresses gone past, and every cell
outside those addresses is as before (R110). -/
structure Pushed (vs : List Byte) (s t : State) : Prop where
  /-- One byte of stack an entry. -/
  sp : t.regs[7].toNat + vs.length = s.regs[7].toNat
  /-- Entry `n` lies `n + 1` below the SP before the pushes. -/
  entry : ∀ (n : Nat) (_ : n < vs.length) (a : Byte), a.toNat + n + 1 = s.regs[7].toNat → t.memRead a = vs[n]
  /-- Below the SP after the pushes, and from the SP before them on, nothing changed. -/
  frame : ∀ a : Byte, a.toNat < t.regs[7].toNat ∨ s.regs[7].toNat ≤ a.toNat → t.memRead a = s.memRead a

theorem Pushed.nil (s : State) : Pushed [] s s where
  sp := rfl
  entry := fun _ hn => absurd hn (Nat.not_lt_zero _)
  frame := fun _ _ => rfl

/-- A push and the pushes after it: these start at the first push's cell and leave it alone. -/
theorem Pushed.cons {v : Byte} {vs : List Byte} {s t u : State} (hst : Pushed [v] s t) (htu : Pushed vs t u) :
    Pushed (v :: vs) s u := by
  have hs : t.regs[7].toNat + 1 = s.regs[7].toNat := hst.sp
  have ht : u.regs[7].toNat + vs.length = t.regs[7].toNat := htu.sp
  refine ⟨by rw [List.length_cons]; omega, fun n hn a ha => ?_, fun a ha => ?_⟩
  · cases n with
    | zero => rw [htu.frame a (by omega), hst.entry 0 Nat.one_pos a ha]; rfl
    | succ n => exact htu.entry n (Nat.lt_of_succ_lt_succ hn) a (by omega)
  · rw [htu.frame a (by omega), hst.frame a (by omega)]

/-! ### One push and many -/

/-- SP after a legal push, as a number: the decrement does not wrap. -/
theorem toNat_sp_sub_one {s : State} (hs : s.CanPush) : (s.sp - 1).toNat + 1 = s.regs[7].toNat := by
  have hpos : s.stackFloor.toNat < s.regs[7].toNat := hs.1
  rw [State.sp_eq]
  bv_omega

/-- A legal push puts its byte at the new SP. -/
theorem Pushed.of_canPush {s : State} (hs : s.CanPush) (hm : s.mem.wf = true) (v : Byte) :
    Pushed [v] s ((s.setSp (s.sp - 1)).memWrite (s.sp - 1) v) := by
  have hsp : ((s.setSp (s.sp - 1)).memWrite (s.sp - 1) v).regs[7] = s.sp - 1 := State.sp_setSp s _
  have hdec := toNat_sp_sub_one hs
  refine ⟨by rw [hsp]; exact hdec, fun n hn a ha => ?_, fun a ha => ?_⟩
  · obtain rfl : n = 0 := Nat.lt_one_iff.1 hn
    obtain rfl : a = s.sp - 1 := BitVec.eq_of_toNat_eq (by omega)
    exact State.memRead_memWrite_same (s := s.setSp _) hm _ v
  · rw [hsp] at ha
    exact State.memRead_memWrite_ne (s.setSp _) v (by rintro rfl; omega)

/-- A legal push succeeds, and keeps what the next push needs: the canonical memory and the floor. -/
theorem stackPush_pushed {s : State} (hs : s.CanPush) (hm : s.mem.wf = true) (v : Byte) :
    ∃ t, stackPush v s = .ok t ∧ Pushed [v] s t ∧ t.mem.wf = true ∧ t.stackFloor = s.stackFloor :=
  ⟨_, stackPush_ok hs v, Pushed.of_canPush hs hm v, State.memWrite_wf (s := s.setSp _) hm _ v, rfl⟩

/-- Pushes from a legal SP, with room for their bytes above the floor, all succeed. -/
theorem pushAll_pushed : ∀ (vs : List Byte) {s : State}, s.mem.wf = true → s.regs[7].toNat ≤ 0xF4 →
    s.stackFloor.toNat + vs.length ≤ s.regs[7].toNat → ∃ t, pushAll vs s = .ok t ∧ Pushed vs s t
  | [], s, _, _, _ => ⟨s, rfl, Pushed.nil s⟩
  | v :: vs, s, hm, htop, hroom => by
    rw [List.length_cons] at hroom
    obtain ⟨t, hpush, hst, hmt, hfloor⟩ := stackPush_pushed ⟨by omega, htop⟩ hm v
    have hsp : t.regs[7].toNat + 1 = s.regs[7].toNat := hst.sp
    obtain ⟨u, hrest, htu⟩ := pushAll_pushed vs hmt (by omega) (by rw [hfloor]; omega)
    exact ⟨u, by rw [pushAll, hpush]; exact hrest, hst.cons htu⟩

/-- Settles O47: a push and a pop that succeed did what their rules say, and pushes from 0xF4 by induction over the
bytes. -/
theorem stackIsFullDescending : Obligations.StackIsFullDescending := by
  refine ⟨fun s t v h => ?_, fun s t v h => ?_, fun s vs hsp hm hroom => ?_⟩
  · rcases stackPush_cases v s with ⟨-, hok⟩ | ⟨-, herr⟩
    · cases h.symm.trans hok
      rfl
    · cases h.symm.trans herr
  · rcases stackPop_cases s with ⟨-, hok⟩ | ⟨-, herr⟩
    · cases h.symm.trans hok
      exact ⟨rfl, rfl⟩
    · cases h.symm.trans herr
  · have htop : s.regs[7].toNat = 0xF4 := congrArg BitVec.toNat hsp
    obtain ⟨t, ht, hpushed⟩ := pushAll_pushed vs hm htop.le (by omega)
    have hlow : t.regs[7].toNat = 0xF4 - vs.length := by have := hpushed.sp; omega
    refine ⟨t, ht, hlow, fun n hn => ?_, fun a ha => hpushed.frame a (by rwa [hlow, htop])⟩
    exact hpushed.entry n hn _ (by rw [htop, BitVec.toNat_ofNat]; omega)

end Sys2Proof.Machine
end

section
/-! SUPPORT. What a step comes to (40_engine.md R85): a stopped core stays, a running one takes a fault whose record is
legal (60_exceptions.md R151) or makes one instruction's own effect. From this the machine's invariant. Settles O2, O3, O9,
O39 and O41. -/

namespace Sys2Proof.Machine

/-! ### The faults of a step leave a legal record -/

/-- Every fault an instruction raises after its fetch leaves a record of the spec's table (R151). -/
theorem Raises.recordLegal {s : State} {k : FaultKind} {i : Instr} (hpc : s.pc.toNat ≤ 0xFD) (h : Raises s k i) :
    RecordLegal (faultCode k) s.pc (faultIrOf k (opcodeOf i)) := by
  have bad {ir : Byte} (hir : ir ∈ [(0x82 : Byte), 0x47, 0x45, 0x46, 0x50, 0xA7, 0x54, 0x55, 0x56]) :
      RecordLegal 4 s.pc ir := .inr (.inr (.inr (.inr ⟨rfl, hir, hpc⟩)))
  have stack {ir : Byte} (hir : ir ∈ [(0x45 : Byte), 0x50, 0x46, 0x11]) : RecordLegal 3 s.pc ir :=
    .inr (.inr (.inr (.inl ⟨rfl, hir, hpc⟩)))
  have advance {ir : Byte} (hir : ir ∈ [(0x82 : Byte), 0xA7]) (htop : s.pc = 0xFD) : RecordLegal 3 s.pc ir :=
    .inr (.inr (.inl ⟨rfl, hir, htop⟩))
  cases i with
  | hlt => exact h.elim
  | ldi =>
    rcases h with rfl | ⟨rfl, htop⟩
    · exact bad (ir := 0x82) (by decide)
    · exact advance (ir := 0x82) (by decide) htop
  | cmp =>
    rcases h with rfl | ⟨rfl, htop⟩
    · exact bad (ir := 0xA7) (by decide)
    · exact advance (ir := 0xA7) (by decide) htop
  | push =>
    rcases h with rfl | rfl
    · exact bad (ir := 0x45) (by decide)
    · exact stack (ir := 0x45) (by decide)
  | pop =>
    rcases h with rfl | rfl
    · exact bad (ir := 0x46) (by decide)
    · exact stack (ir := 0x46) (by decide)
  | call =>
    rcases h with rfl | rfl
    · exact bad (ir := 0x50) (by decide)
    · exact stack (ir := 0x50) (by decide)
  | ret =>
    obtain rfl := h
    exact stack (ir := 0x11) (by decide)
  | prn =>
    obtain rfl := h
    exact bad (ir := 0x47) (by decide)
  | jmp =>
    obtain rfl := h
    exact bad (ir := 0x54) (by decide)
  | jeq =>
    obtain rfl := h
    exact bad (ir := 0x55) (by decide)
  | jne =>
    obtain rfl := h
    exact bad (ir := 0x56) (by decide)

/-- A legal record's cause is neither "no fault" nor the ALU's code, which no program reaches (R153). -/
theorem RecordLegal.cause_ne {c : BitVec 3} {pc ir : Byte} (h : RecordLegal c pc ir) : c ≠ 0 ∧ c ≠ 2 := by
  rcases h with ⟨rfl, -⟩ | ⟨rfl, -⟩ | ⟨rfl, -⟩ | ⟨rfl, -⟩ | ⟨rfl, -⟩ <;> decide

/-- The record of a fault at the fetch (R154). -/
theorem recordLegal_fetch {pc : Byte} (h : 0xFD < pc.toNat) : RecordLegal 3 pc 0x00 := .inr (.inl ⟨rfl, rfl, h⟩)

/-! ### The three outcomes -/

/-- A core was running and took a fault whose record is legal; nothing else happened. -/
def TookFault (s t : State) : Prop := s.run = true ∧ ∃ c ir, RecordLegal c s.pc ir ∧ t = s.faulted c ir

/-- What an instruction comes to: nothing in a stopped core, a fault, or its effect. -/
theorem exec_outcome {i : Instr} {s t : State} (h : exec i s = .next t) :
    (s.run = false ∧ t = s) ∨ TookFault s t ∨ (s.Ready ∧ Effect s t i) := by
  rcases exec_cases h with hstop | ⟨hrun, hpc, rfl⟩ | heff | ⟨hready, k, hk, rfl⟩
  · exact .inl hstop
  · exact .inr (.inl ⟨hrun, _, _, recordLegal_fetch hpc, rfl⟩)
  · exact .inr (.inr heff)
  · exact .inr (.inl ⟨hready.1, _, _, hk.recordLegal hready.2, rfl⟩)

/-- What a step comes to: nothing in a stopped core, a fault, or the effect of the instruction at pc. -/
theorem step_outcome {s t : State} (h : step s = .next t) :
    (s.run = false ∧ t = s) ∨ TookFault s t ∨
      (s.Ready ∧ ∃ i, opcodeOf i = s.memRead s.pc ∧ Effect s t i) := by
  rcases step_cases h with hstop | ⟨hrun, hpc, rfl⟩ | ⟨hready, hopc, rfl⟩ | ⟨hready, i, hi, -, hexec⟩
  · exact .inl hstop
  · exact .inr (.inl ⟨hrun, _, _, recordLegal_fetch hpc, rfl⟩)
  · exact .inr (.inl ⟨hready.1, _, _, .inl ⟨rfl, hopc, hready.2⟩, rfl⟩)
  · rcases exec_outcome hexec with hstop | hfault | ⟨-, heff⟩
    · exact .inl hstop
    · exact .inr (.inl hfault)
    · exact .inr (.inr ⟨hready, i, hi, heff⟩)

/-! ### The invariant -/

/-- AluCompare answers one of the three one-hot codes (R30, R133). -/
theorem aluCompare_oneHot (x y : Byte) : aluCompare x y = 0x01 ∨ aluCompare x y = 0x02 ∨ aluCompare x y = 0x04 := by
  unfold aluCompare
  split_ifs
  · exact .inr (.inr rfl)
  · exact .inr (.inl rfl)
  · exact .inl rfl

/-- FL after an instruction's own effect: as before, or what AluCompare answered (R29). -/
theorem Effect.fl_kept_or_compared {s t : State} {i : Instr} (h : Effect s t i) :
    t.fl = s.fl ∨ ∃ x y, t.fl = aluCompare x y := by
  by_cases hi : isCmp i = false
  · exact .inl (h.fl hi)
  · cases i with
    | cmp => obtain ⟨-, -, -, rfl⟩ := h; exact .inr ⟨_, _, rfl⟩
    | _ => exact absurd rfl hi

/-- Fault entry with a legal record keeps the invariant. -/
theorem State.Inv.faulted {s : State} (hs : s.Inv) {c : BitVec 3} {ir : Byte} (h : RecordLegal c s.pc ir) :
    (s.faulted c ir).Inv where
  memWf := hs.memWf
  flOneHot := hs.flOneHot
  floorLow := hs.floorLow
  recordClear := fun hc => absurd hc h.cause_ne.1
  recordSet := fun _ => ⟨rfl, rfl, h⟩

/-- An instruction's own effect keeps the invariant: it writes memory canonically, FL one-hot, and no record. -/
theorem Effect.inv {s t : State} {i : Instr} (hrun : s.run = true) (hs : s.Inv) (h : Effect s t i) : t.Inv := by
  obtain ⟨hcause, hpc, hir, hfloor⟩ := h.record
  have hclear : s.faultCause = 0 := by
    by_contra hne
    have hstop := (hs.recordSet hne).1
    simp [hrun] at hstop
  refine ⟨?_, ?_, hfloor ▸ hs.floorLow, fun _ => ?_, fun hne => absurd (hcause.trans hclear) hne⟩
  · rcases h.mem with hmem | ⟨-, -, v, hmem⟩
    · exact hmem ▸ hs.memWf
    · exact hmem ▸ Memory.wf_write hs.memWf (s.sp - 1).isLt v
  · rcases h.fl_kept_or_compared with hfl | ⟨x, y, hfl⟩
    · exact hfl ▸ hs.flOneHot
    · exact hfl ▸ aluCompare_oneHot x y
  · rw [hpc, hir]
    exact hs.recordClear hclear

/-- Settles O3, over what a step comes to. -/
theorem stepKeepsInvariant : Obligations.StepKeepsInvariant := by
  intro s t hs h
  rcases step_outcome h with ⟨-, rfl⟩ | ⟨-, c, ir, hlegal, rfl⟩ | ⟨⟨hrun, -⟩, i, -, heff⟩
  · exact hs
  · exact hs.faulted hlegal
  · exact heff.inv hrun hs

/-- Settles O2. -/
theorem resetMeetsInvariant : Obligations.ResetMeetsInvariant where
  memWf := rfl
  flOneHot := .inl rfl
  floorLow := by decide
  recordClear := fun _ => ⟨rfl, rfl⟩
  recordSet := fun h => absurd rfl h

/-! ### What follows for every step -/

/-- Settles O9: an effect that clears RUN is HLT's, and a legal record has a cause. -/
theorem stepEndsInOneOfThreeWays : Obligations.StepEndsInOneOfThreeWays := by
  rintro s ⟨hrun, hclear⟩
  obtain ⟨t, ht⟩ := step_total s
  refine ⟨t, ht, ?_⟩
  rcases step_outcome ht with ⟨hstop, -⟩ | ⟨-, c, ir, hlegal, rfl⟩ | ⟨-, i, -, heff⟩
  · simp [hrun] at hstop
  · exact .inr (.inr ⟨⟨rfl, hlegal.cause_ne.1⟩, rfl⟩)
  · rcases heff.run with hkept | ⟨-, rfl⟩
    · exact .inl ⟨hkept.trans hrun, heff.record.1.trans hclear⟩
    · exact .inr (.inl ⟨⟨rfl, hclear⟩, rfl⟩)

/-- Settles O39: neither fault entry nor any effect writes STACK_FLOOR. -/
theorem stackFloorIsConstant : Obligations.StackFloorIsConstant := by
  intro s t h
  rcases step_outcome h with ⟨-, rfl⟩ | ⟨-, c, ir, -, rfl⟩ | ⟨-, i, -, heff⟩
  · rfl
  · rfl
  · obtain ⟨-, -, -, hfloor⟩ := heff.record
    exact hfloor

/-- Settles O41: a step's fault has a legal record, whose cause is never 2. -/
theorem unsupportedAluUnreachable : Obligations.UnsupportedAluUnreachable := by
  refine ⟨fun _ _ _ _ => rfl, rfl, fun s t h hs => ?_⟩
  rcases step_outcome h with ⟨-, rfl⟩ | ⟨-, c, ir, hlegal, rfl⟩ | ⟨-, i, -, heff⟩
  · exact hs
  · exact hlegal.cause_ne.2
  · rwa [heff.record.1]

end Sys2Proof.Machine
end

section
/-! SUPPORT. The decoder on byte sequences against the encoder (30_encoding.md R60 to R68), and the front end around it
(40_engine.md R81, R82). Settles O5, O6, O7, O32, O33 and O53. -/

namespace Sys2Proof

/-! ### Byte sequences -/

/-- No encoding is longer than the three bytes a fetch reads (R63). -/
theorem encode_length_le (i : Instr) : (encode i).length ≤ 3 := by
  cases i <;> simp [encode]

/-- No encoding is empty. -/
theorem encode_length_pos (i : Instr) : 0 < (encode i).length := by
  cases i <;> simp [encode]

/-- Whether a sequence of three or more bytes begins with an encoding shows in its first three. -/
theorem encode_prefix_iff_first_three {i : Instr} {opc a b : Byte} {rest : List Byte} :
    encode i <+: opc :: a :: b :: rest ↔ encode i <+: [opc, a, b] := by
  have hfirst : [opc, a, b] <+: opc :: a :: b :: rest := ⟨rest, rfl⟩
  exact ⟨fun h => List.prefix_of_prefix_length_le h hfirst (encode_length_le i), fun h => h.trans hfirst⟩

/-- What the decoder answers is the instruction whose encoding the bytes begin with, of which it wants three
(assumption 22). -/
theorem decodeBytes_eq_ok_iff {bytes : List Byte} {i : Instr} :
    decodeBytes bytes = .ok i ↔ 3 ≤ bytes.length ∧ encode i <+: bytes := by
  match bytes with
  | [] | [_] | [_, _] =>
    refine iff_of_false (fun h => by cases h) fun h => ?_
    simp at h
  | opc :: a :: b :: rest =>
    have hlen : 3 ≤ (opc :: a :: b :: rest).length := by simp
    rw [and_iff_right hlen, encode_prefix_iff_first_three]
    exact decode_eq_ok_iff

/-! ### How many bytes are no opcode -/

/-- The byte values in a list without repetitions are as many as the list is long. -/
theorem length_filter_byte_mem {l : List Byte} (hl : l.Nodup) :
    ((List.range 256).filter fun n => decide (BitVec.ofNat 8 n ∈ l)).length = l.length := by
  have hperm : ((List.range 256).filter fun n => decide (BitVec.ofNat 8 n ∈ l)).Perm (l.map BitVec.toNat) := by
    refine (List.perm_ext_iff_of_nodup (List.nodup_range.filter _)
      (hl.map fun _ _ => BitVec.eq_of_toNat_eq)).2 fun n => ?_
    simp only [List.mem_filter, List.mem_range, decide_eq_true_eq, List.mem_map]
    constructor
    · rintro ⟨hn, hmem⟩
      exact ⟨_, hmem, (BitVec.toNat_ofNat n 8).trans (Nat.mod_eq_of_lt hn)⟩
    · rintro ⟨x, hx, rfl⟩
      exact ⟨x.isLt, by rwa [BitVec.ofNat_toNat, BitVec.setWidth_eq]⟩
  rw [hperm.length_eq, List.length_map]

/-- The byte values outside such a list are the rest of the 256. -/
theorem length_filter_byte_notMem {l : List Byte} (hl : l.Nodup) :
    ((List.range 256).filter fun n => decide (BitVec.ofNat 8 n ∉ l)).length = 256 - l.length := by
  have hall := List.length_eq_length_filter_add (l := List.range 256) fun n => decide (BitVec.ofNat 8 n ∈ l)
  simp only [← decide_not] at hall
  rw [length_filter_byte_mem hl, List.length_range] at hall
  omega

namespace Machine

/-- Settles O32: the round trip is the equivalence at an encoding with two bytes after it. -/
theorem decodeAgreesWithEncode : Obligations.DecodeAgreesWithEncode := by
  refine ⟨fun i x y => decodeBytes_eq_ok_iff.2 ⟨?_, List.prefix_append _ _⟩, fun _ _ => decodeBytes_eq_ok_iff⟩
  have hpos := encode_length_pos i
  simp only [List.length_append, List.length_cons, List.length_nil]
  omega

/-- Settles O33: every word runs through the decoder. -/
theorem encodingTableWords : Obligations.EncodingTableWords :=
  ⟨rfl, rfl, rfl, rfl, rfl, rfl, rfl, rfl, rfl, rfl, rfl⟩

/-! ### The front end -/

/-- Settles O5. -/
theorem stepRunsDecodedInstruction : Obligations.StepRunsDecodedInstruction := by
  intro s i hs hdec
  have hdec' : decode (s.memRead s.pc) (s.memRead (s.pc + 1)) (s.memRead (s.pc + 2)) = .ok i := hdec
  rw [step_ready hs, hdec']

/-- Settles O6: the fetch faults in the step, and in the run of every instruction's handler. -/
theorem fetchPastTopFaults : Obligations.FetchPastTopFaults := by
  refine fun s hrun hpc => ⟨step_unfetchable hrun hpc, fun i => ?_⟩
  obtain ⟨r, hr, -⟩ := exec_eq_perform i s
  rw [hr]
  exact perform_unfetchable hrun hpc _ r

/-- Settles O7: the decoder refuses every byte outside the map, and the map has eleven of the 256. -/
theorem unsupportedOpcodeFaults : Obligations.UnsupportedOpcodeFaults := by
  refine ⟨fun s hs hopc => ?_, length_filter_byte_notMem (by decide)⟩
  rw [step_ready hs, decode_error _ _ hopc]
  rfl

/-- Settles O53. -/
theorem traceTupleAtFetch : Obligations.TraceTupleAtFetch := by
  refine fun s => ⟨fun ⟨hrun, hpc⟩ => ?_, fun hs => ?_⟩
  · rw [State.trace, if_pos hrun, fetch_ok hpc]
  · by_cases hrun : s.run = true
    · rw [State.trace, if_pos hrun, fetch_error (by by_contra hpc; exact hs ⟨hrun, by omega⟩)]
    · exact if_neg hrun

end Machine

end Sys2Proof
end

section
/-! SUPPORT. Frames: for each piece of state, which instructions' effects leave it as it was; fault entry and a stopped
core leave all of it (40_engine.md R80, 60_exceptions.md R158). Settles O25 to O31 and O44. -/

namespace Sys2Proof.Machine

/-! ### From an effect to the instruction -/

/-- What fault entry does not write is kept, or the instruction had its own effect. -/
theorem exec_kept_or_effect {α : Type} {f : State → α} (hf : ∀ (s : State) c ir, f (s.faulted c ir) = f s)
    {i : Instr} {s t : State} (h : exec i s = .next t) : f t = f s ∨ (s.Ready ∧ Effect s t i) := by
  rcases exec_outcome h with ⟨-, rfl⟩ | ⟨-, c, ir, -, rfl⟩ | heff
  · exact .inl rfl
  · exact .inl (hf s c ir)
  · exact .inr heff

/-- What neither fault entry nor the instruction's own effect writes is kept. -/
theorem exec_kept {α : Type} {f : State → α} (hf : ∀ (s : State) c ir, f (s.faulted c ir) = f s) {i : Instr}
    {s t : State} (heff : Effect s t i → f t = f s) (h : exec i s = .next t) : f t = f s :=
  (exec_kept_or_effect hf h).elim id fun ⟨_, he⟩ => heff he

/-! ### Registers, output, STACK_FLOOR, the fault record -/

/-- The register indices an instruction's own effect writes. -/
def writtenIndices : Instr → List Nat
  | .ldi r _ => [r.toNat]
  | .push _ | .call _ | .ret => [7]
  | .pop r => [r.toNat, 7]
  | .hlt | .prn _ | .cmp _ _ | .jmp _ | .jeq _ | .jne _ => []

/-- A register survives a write to another index. -/
theorem regs_set_of_ne {regs : Vector Byte 8} {n : Nat} (hn : n < 8) (v : Byte) {j : Fin 8} (hj : j.val ≠ n) :
    (regs.set n v hn)[j] = regs[j] :=
  Vector.getElem_set_ne hn j.isLt hj.symm

/-- An effect keeps every register it does not write (R21). -/
theorem Effect.reg {s t : State} {i : Instr} (h : Effect s t i) {j : Fin 8} (hj : j.val ∉ writtenIndices i) :
    t.regs[j] = s.regs[j] := by
  cases i with
  | ldi => obtain ⟨hr, -, rfl⟩ := h; exact regs_set_of_ne hr _ (List.ne_of_not_mem_cons hj)
  | push => obtain ⟨-, -, rfl⟩ := h; exact regs_set_of_ne (by decide) _ (List.ne_of_not_mem_cons hj)
  | call => obtain ⟨-, -, rfl⟩ := h; exact regs_set_of_ne (by decide) _ (List.ne_of_not_mem_cons hj)
  | ret => obtain ⟨-, rfl⟩ := h; exact regs_set_of_ne (by decide) _ (List.ne_of_not_mem_cons hj)
  | pop =>
    obtain ⟨hr, -, rfl⟩ := h
    exact (regs_set_of_ne hr _ (List.ne_of_not_mem_cons hj)).trans
      (regs_set_of_ne (by decide) _ (List.ne_of_not_mem_cons (List.not_mem_of_not_mem_cons hj)))
  | hlt => rw [show t = _ from h]; rfl
  | prn => obtain ⟨-, rfl⟩ := h; rfl
  | cmp => obtain ⟨-, -, -, rfl⟩ := h; rfl
  | jmp => obtain ⟨-, rfl⟩ := h; rfl
  | jeq => obtain ⟨-, rfl⟩ := h; rfl
  | jne => obtain ⟨-, rfl⟩ := h; rfl

theorem exec_reg {i : Instr} {s t : State} (h : exec i s = .next t) {j : Fin 8} (hj : j.val ∉ writtenIndices i) :
    t.regs[j] = s.regs[j] :=
  exec_kept (f := fun u => u.regs[j]) (fun _ _ _ => rfl) (fun heff => heff.reg hj) h

/-- An instruction that writes no register keeps the register file. -/
theorem exec_regs {i : Instr} {s t : State} (hi : writtenIndices i = []) (h : exec i s = .next t) :
    t.regs = s.regs :=
  Vector.ext fun n hn => exec_reg h (j := ⟨n, hn⟩) (by simp [hi])

/-- The output grows by PRN's byte alone (R102). -/
theorem Effect.out {s t : State} {i : Instr} (h : Effect s t i) :
    t.out = s.out ∨ (∃ r, i = .prn r) ∧ ∃ v, t.out = s.out ++ [v] := by
  cases i with
  | prn => obtain ⟨-, rfl⟩ := h; exact .inr ⟨⟨_, rfl⟩, _, rfl⟩
  | hlt => rw [show t = _ from h]; exact .inl rfl
  | ldi => obtain ⟨-, -, rfl⟩ := h; exact .inl rfl
  | push => obtain ⟨-, -, rfl⟩ := h; exact .inl rfl
  | pop => obtain ⟨-, -, rfl⟩ := h; exact .inl rfl
  | call => obtain ⟨-, -, rfl⟩ := h; exact .inl rfl
  | ret => obtain ⟨-, rfl⟩ := h; exact .inl rfl
  | cmp => obtain ⟨-, -, -, rfl⟩ := h; exact .inl rfl
  | jmp => obtain ⟨-, rfl⟩ := h; exact .inl rfl
  | jeq => obtain ⟨-, rfl⟩ := h; exact .inl rfl
  | jne => obtain ⟨-, rfl⟩ := h; exact .inl rfl

theorem exec_out_cases {i : Instr} {s t : State} (h : exec i s = .next t) :
    t.out = s.out ∨ (∃ r, i = .prn r) ∧ ∃ v, t.out = s.out ++ [v] := by
  rcases exec_kept_or_effect (f := State.out) (fun _ _ _ => rfl) h with hout | ⟨-, heff⟩
  · exact .inl hout
  · exact heff.out

theorem exec_out {i : Instr} {s t : State} (h : exec i s = .next t) (hi : ∀ r, i ≠ .prn r) : t.out = s.out := by
  rcases exec_out_cases h with hout | ⟨⟨r, hr⟩, -⟩
  · exact hout
  · exact absurd hr (hi r)

theorem exec_stackFloor {i : Instr} {s t : State} (h : exec i s = .next t) : t.stackFloor = s.stackFloor :=
  exec_kept (fun _ _ _ => rfl) (fun heff => let ⟨_, _, _, hfloor⟩ := heff.record; hfloor) h

/-- RUN and the fault record are kept unless a fault is taken, but for HLT's RUN. -/
theorem exec_recordKept {i : Instr} {s t : State} (h : exec i s = .next t) (hi : i ≠ .hlt) : RecordKept s t := by
  rcases exec_outcome h with ⟨-, rfl⟩ | ⟨-, c, ir, hlegal, rfl⟩ | ⟨-, heff⟩
  · exact .inl ⟨rfl, rfl, rfl, rfl⟩
  · exact .inr ⟨hlegal.cause_ne.1, rfl⟩
  · obtain ⟨hcause, hpc, hir, -⟩ := heff.record
    rcases heff.run with hrun | ⟨hhlt, -⟩
    · exact .inl ⟨hrun, hcause, hpc, hir⟩
    · exact absurd hhlt hi

/-! ### Memory -/

/-- Memory reads as before, or a PUSH or CALL that may push wrote the cell below SP (R41, R111). -/
theorem Effect.memRead {s t : State} {i : Instr} (h : Effect s t i) :
    (∀ a : Byte, t.memRead a = s.memRead a) ∨
      (s.CanPush ∧ ((∃ r, i = .push r) ∨ (∃ r, i = .call r)) ∧
        ∀ a : Byte, a ≠ s.sp - 1 → t.memRead a = s.memRead a) := by
  rcases h.mem with hmem | ⟨hpush, hi, v, hmem⟩
  · exact .inl fun a => congrArg (Memory.read · a.toNat) hmem
  · refine .inr ⟨hpush, hi, fun a ha => ?_⟩
    calc t.memRead a = (s.memWrite (s.sp - 1) v).memRead a := congrArg (Memory.read · a.toNat) hmem
      _ = s.memRead a := State.memRead_memWrite_ne s v ha

theorem exec_memRead_ne {i : Instr} {s t : State} (h : exec i s = .next t) {a : Byte} (ha : a ≠ s.sp - 1) :
    t.memRead a = s.memRead a := by
  refine exec_kept (f := fun u => u.memRead a) (fun _ _ _ => rfl) (fun heff => ?_) h
  rcases heff.memRead with hread | ⟨-, -, hread⟩
  · exact hread a
  · exact hread a ha

/-- An instruction other than PUSH and CALL leaves every cell. -/
theorem exec_memRead {i : Instr} {s t : State} (h : exec i s = .next t) (hpush : ∀ r, i ≠ .push r)
    (hcall : ∀ r, i ≠ .call r) (a : Byte) : t.memRead a = s.memRead a := by
  refine exec_kept (f := fun u => u.memRead a) (fun _ _ _ => rfl) (fun heff => ?_) h
  rcases heff.memRead with hread | ⟨-, ⟨r, hr⟩ | ⟨r, hr⟩, -⟩
  · exact hread a
  · exact absurd hr (hpush r)
  · exact absurd hr (hcall r)

/-- Settles O44: PUSH's and CALL's opcode bytes are what stood at pc. -/
theorem onlyPushAndCallWriteMemory : Obligations.OnlyPushAndCallWriteMemory := by
  intro s t h
  rcases step_outcome h with ⟨-, rfl⟩ | ⟨-, c, ir, -, rfl⟩ | ⟨hready, i, hi, heff⟩
  · exact .inl fun _ => rfl
  · exact .inl fun _ => rfl
  · rcases heff.memRead with hread | ⟨hpush, hi', hread⟩
    · exact .inl hread
    · refine .inr ⟨hready, ?_, hpush, hread⟩
      rcases hi' with ⟨r, rfl⟩ | ⟨r, rfl⟩
      · exact .inl hi.symm
      · exact .inr hi.symm

/-! ### The frame of each instruction -/

/-- Settles O25. -/
theorem hltFrame : Obligations.HltFrame := by
  intro s t h
  rcases exec_outcome h with ⟨-, rfl⟩ | ⟨-, c, ir, -, rfl⟩ | ⟨-, rfl⟩
  · exact ⟨rfl, rfl, rfl, rfl, rfl, fun _ => rfl, .inl ⟨rfl, rfl, rfl⟩⟩
  · exact ⟨rfl, rfl, rfl, rfl, rfl, fun _ => rfl, .inr rfl⟩
  · exact ⟨rfl, rfl, rfl, rfl, rfl, fun _ => rfl, .inl ⟨rfl, rfl, rfl⟩⟩

/-- Settles O26. -/
theorem ldiFrame : Obligations.LdiFrame := fun _ _ _ _ h =>
  ⟨fun _ hj => exec_reg h (mt List.mem_singleton.1 hj), exec_fl rfl h, exec_out h nofun, exec_stackFloor h,
    exec_memRead h nofun nofun, exec_recordKept h nofun⟩

/-- Settles O27. -/
theorem prnFrame : Obligations.PrnFrame := fun _ _ _ h =>
  ⟨exec_regs rfl h, exec_fl rfl h, exec_stackFloor h, exec_memRead h nofun nofun, (exec_out_cases h).imp_right And.right,
    exec_recordKept h nofun⟩

/-- Settles O28: FL is kept, or AluCompare's one-hot code. -/
theorem cmpFrame : Obligations.CmpFrame := by
  intro s t ra rb h
  refine ⟨exec_regs rfl h, exec_out h nofun, exec_stackFloor h, exec_memRead h nofun nofun, ?_,
    exec_recordKept h nofun⟩
  rcases exec_kept_or_effect (f := State.fl) (fun _ _ _ => rfl) h with hfl | ⟨-, -, -, -, rfl⟩
  · exact .inl hfl
  · refine .inr ?_
    rw [State.setPc_fl, State.setFl_fl]
    rcases aluCompare_oneHot (s.readReg _) (s.readReg _) with e | e | e <;> rw [e] <;> decide

/-- Settles O29: what holds of an instruction that writes no register, FL, output or memory. -/
theorem branchFrame : Obligations.BranchFrame := by
  rintro s t r (h | h | h)
  all_goals exact ⟨exec_regs rfl h, exec_fl rfl h, exec_out h nofun, exec_stackFloor h, exec_memRead h nofun nofun,
    exec_recordKept h nofun⟩

/-- Settles O30. -/
theorem pushCallFrame : Obligations.PushCallFrame := by
  rintro s t r (h | h)
  all_goals exact ⟨fun _ hj => exec_reg h (mt List.mem_singleton.1 (Fin.val_ne_of_ne hj)), exec_fl rfl h,
    exec_out h nofun, exec_stackFloor h, fun _ => exec_memRead_ne h, exec_recordKept h nofun⟩

/-- Settles O31. -/
theorem popRetFrame : Obligations.PopRetFrame := by
  refine fun s t r => ⟨fun h j hj hr => ?_, fun h j hj => ?_, ?_⟩
  · exact exec_reg h (List.not_mem_cons_of_ne_of_not_mem hr (mt List.mem_singleton.1 (Fin.val_ne_of_ne hj)))
  · exact exec_reg h (mt List.mem_singleton.1 (Fin.val_ne_of_ne hj))
  · rintro (h | h)
    all_goals exact ⟨exec_fl rfl h, exec_out h nofun, exec_stackFloor h, exec_memRead h nofun nofun,
      exec_recordKept h nofun⟩

end Sys2Proof.Machine
end

section
/-! SUPPORT. What each instruction does where it completes: in a ready state whose guards hold the handler computes, part by
part, the state after (41_system_data.md to 45_branch.md). Settles O10 to O20 and O40. -/

namespace Sys2Proof.Machine

/-! ### Compare -/

/-- Settles O40: AluCompare's three branches. -/
theorem aluCompareContract : Obligations.AluCompareContract := by
  refine fun s i j => ⟨aluCompare s.regs[i] s.regs[j], rfl, fun hlt => if_pos hlt, fun hgt => ?_, fun heq => ?_⟩
  · rw [aluCompare, if_neg hgt.asymm, if_pos hgt]
    rfl
  · rw [aluCompare, heq, if_neg (lt_irrefl _), if_neg (lt_irrefl _)]
    rfl

/-! ### System and data -/

/-- Settles O10. -/
theorem hltResult : Obligations.HltResult := fun s hs => perform_ok hs opcHlt s.halt

/-- Settles O11. -/
theorem ldiResult : Obligations.LdiResult := by
  intro s r imm hr hs hpc
  rw [exec, execLdi, regOperand_ok hr, seqPc_three hpc]
  exact perform_ok hs _ _

/-- Settles O12. -/
theorem prnResult : Obligations.PrnResult := by
  intro s r hr hs
  rw [exec, execPrn, regOperand_ok hr, seqPc_two hs.2]
  exact perform_ok hs _ _

/-! ### The stack -/

/-- A register read after SP was set. -/
theorem State.regs_setSp (s : State) (v : Byte) {n : Nat} (hn : n < 8) :
    (s.setSp v).regs[n] = if n = 7 then v else s.regs[n] := by
  simp only [State.setSp_regs, Vector.getElem_set, eq_comm (a := n)]
  rfl

/-- Settles O13. -/
theorem pushResult : Obligations.PushResult := by
  intro s r hr hs hpush
  rw [exec, execPush, regOperand_ok hr, openSlot_ok hpush, seqPc_two hs.2, ← State.regs_setSp]
  refine (perform_ok hs _ _).trans ?_
  rw [State.sp_setSp]
  rfl

/-- Settles O14. -/
theorem popResult : Obligations.PopResult := by
  intro s r hr hs hpop
  rw [exec, execPop, regOperand_ok hr, stackPop_ok hpop, seqPc_two hs.2]
  exact perform_ok hs _ _

/-! ### Calls and returns -/

/-- Settles O15: where the push is legal the operand byte is the one re-read. -/
theorem callResult : Obligations.CallResult := by
  intro s r k hs hpush hk
  have hr : regOperand (s.reRead r) = .ok k :=
    (regOperand_ok (hk ▸ k.isLt)).trans (congrArg Except.ok (Fin.ext hk))
  have hregs : (s.setSp (s.sp - 1)).readReg k = if k = 7 then s.regs[7] - 1 else s.regs[k] := by
    simp only [Fin.ext_iff]
    exact s.regs_setSp (s.sp - 1) k.isLt
  rw [exec, execCall, callOperand_of_canPush hpush, hr, stackPush_ok hpush, State.returnAddress_eq, ← hregs]
  exact perform_ok hs _ _

/-- Settles O16. -/
theorem retResult : Obligations.RetResult := by
  intro s hs hpop
  rw [exec, execRet, stackPop_ok hpop]
  exact perform_ok hs _ _

/-! ### Compare and branches -/

/-- Settles O17. -/
theorem cmpResult : Obligations.CmpResult := by
  intro s ra rb ha hb hs hpc
  rw [exec, execCmp, regOperand_ok ha, regOperand_ok hb, seqPc_three hpc]
  exact perform_ok hs _ _

/-- Settles O18. -/
theorem jmpResult : Obligations.JmpResult := by
  intro s r hr hs
  rw [exec, execJmp, regOperand_ok hr]
  exact perform_ok hs _ _

/-- Settles O19. -/
theorem jeqResult : Obligations.JeqResult := by
  intro s r hr hs
  rw [exec, execJeq, regOperand_ok hr]
  simp only [branchTarget_eq hs.2]
  exact perform_ok hs _ _

/-- Settles O20. -/
theorem jneResult : Obligations.JneResult := by
  intro s r hr hs
  rw [exec, execJne, regOperand_ok hr]
  simp only [branchTarget_eq hs.2, Bool.not_eq_true']
  exact perform_ok hs _ _

end Sys2Proof.Machine
end

section
/-! SUPPORT. Where each instruction traps: in a ready state the first check that fails decides the fault (60_exceptions.md
R157). Settles O21 to O24. -/

namespace Sys2Proof.Machine

/-! ### The operand check -/

/-- A handler that begins with the check of a bad register byte takes InvalidRegister (R83, R155). -/
theorem perform_bad_register {s : State} (hs : s.Ready) {r : Byte} (hr : 8 ≤ r.toNat) (opc : Byte)
    (k : RegIx → Except FaultKind State) : perform opc s (regOperand r >>= k) = .next (s.faulted 4 opc) := by
  rw [regOperand_error (by omega)]
  exact perform_error hs opc .invalidRegister

/-- CMP with a bad second register byte: the fault is the same whatever the first byte is. -/
theorem exec_cmp_bad_second {s : State} (hs : s.Ready) {r : Byte} (hr : 8 ≤ r.toNat) (x : Byte) :
    exec (.cmp x r) s = .next (s.faulted 4 0xA7) := by
  rcases regOperand_cases x with ⟨hx, e⟩ | ⟨hx, -⟩
  · rw [exec, execCmp, e]
    exact perform_bad_register hs hr opcCmp _
  · exact perform_bad_register hs (by omega) opcCmp _

/-- Settles O21. -/
theorem invalidRegisterFaults : Obligations.InvalidRegisterFaults := fun _ _ hs hr =>
  ⟨fun _ => perform_bad_register hs hr opcLdi _, perform_bad_register hs hr opcPrn _,
    perform_bad_register hs hr opcPush _, perform_bad_register hs hr opcPop _,
    fun _ => perform_bad_register hs hr opcCmp _, exec_cmp_bad_second hs hr, perform_bad_register hs hr opcJmp _,
    perform_bad_register hs hr opcJeq _, perform_bad_register hs hr opcJne _⟩

/-- Settles O22: the byte checked is the one re-read where the push is legal, else the one fetched. -/
theorem callInvalidRegisterFaults : Obligations.CallInvalidRegisterFaults := by
  refine fun s r hs => ⟨fun hpush hr => ?_, fun hpush hr => ?_⟩
  · rw [← callOperand_of_canPush hpush] at hr
    exact perform_bad_register hs hr opcCall _
  · rw [← callOperand_of_not_canPush hpush r] at hr
    exact perform_bad_register hs hr opcCall _

/-! ### The stack and the advance -/

/-- Settles O23. -/
theorem stackOutOfBoundsFaults : Obligations.StackOutOfBoundsFaults := by
  refine fun s r hs hr => ⟨fun hpush => ⟨?_, ?_⟩, fun hpop => ⟨?_, ?_⟩⟩
  · rw [exec, execPush, regOperand_ok hr, openSlot_error hpush]
    exact perform_error hs opcPush .outOfBoundsStack
  · rw [exec, execCall, callOperand_of_not_canPush hpush, regOperand_ok hr, stackPush_error hpush]
    exact perform_error hs opcCall .outOfBoundsStack
  · rw [exec, execPop, regOperand_ok hr, stackPop_error hpop]
    exact perform_error hs opcPop .outOfBoundsStack
  · rw [exec, execRet, stackPop_error hpop]
    exact perform_error hs opcRet .outOfBoundsStack

/-- Settles O24. -/
theorem advanceOutOfBoundsFaults : Obligations.AdvanceOutOfBoundsFaults := by
  intro s r x hrun htop hr
  have hpc : s.pc.toNat = 0xFD := congrArg BitVec.toNat htop
  have hs : s.Ready := ⟨hrun, hpc.le⟩
  have hseq : seqPc 3 s = .error .outOfBoundsAdvance := seqPc_error (by omega)
  refine ⟨?_, fun hx => ?_⟩
  · rw [exec, execLdi, regOperand_ok hr, hseq]
    exact perform_error hs opcLdi .outOfBoundsAdvance
  · rw [exec, execCmp, regOperand_ok hr, regOperand_ok hx, hseq]
    exact perform_error hs opcCmp .outOfBoundsAdvance

end Sys2Proof.Machine
end

section
/-! SUPPORT. Noninterference: a register that no operand names (10_state.md R21) and the output (10_state.md R35) stay out of
what an instruction does, because every operation of its handler commutes with replacing them. Settles O37 and O38. -/

namespace Sys2Proof.Machine

/-! ### Stack operations and an update that keeps SP, STACK_FLOOR and memory apart -/

/-- Opening a slot commutes with an update that keeps SP and STACK_FLOOR and commutes with writing SP. -/
theorem openSlot_commute {g : State → State} {s : State} (hsp : (g s).sp = s.sp)
    (hfloor : (g s).stackFloor = s.stackFloor) (hset : ∀ v, (g s).setSp v = g (s.setSp v)) :
    openSlot (g s) = (openSlot s).map g := by
  unfold openSlot State.pushOk
  rw [hsp, hfloor, hset]
  split_ifs <;> rfl

/-- A pop commutes with such an update when it keeps memory. -/
theorem stackPop_commute {g : State → State} {s : State} (hsp : (g s).sp = s.sp)
    (hfloor : (g s).stackFloor = s.stackFloor) (hmem : (g s).mem = s.mem) (hset : ∀ v, (g s).setSp v = g (s.setSp v)) :
    stackPop (g s) = (stackPop s).map (Prod.map id g) := by
  unfold stackPop State.popOk State.memRead
  rw [hsp, hfloor, hset, hmem]
  split_ifs <;> rfl

/-! ### Another register -/

/-- Two writes to different registers commute. -/
theorem State.writeReg_comm (s : State) {i j : RegIx} (hij : i ≠ j) (v w : Byte) :
    (s.writeReg j w).writeReg i v = (s.writeReg i v).writeReg j w :=
  congrArg (fun regs => { s with regs := regs }) (Vector.set_comm w v (Fin.val_ne_of_ne hij.symm))

/-- A register reads the same after a write to another. -/
theorem State.readReg_writeReg_ne (s : State) {i j : RegIx} (hij : i ≠ j) (w : Byte) :
    (s.writeReg j w).readReg i = s.readReg i :=
  (s.readReg_writeReg j i w).trans (if_neg hij.symm)

/-- An operand byte that names another register: the rest of the handler need commute for that register only. -/
theorem regOperand_bind_commute {r : Byte} {j : RegIx} (hj : j.val ≠ r.toNat) {g : State → State}
    {k k' : RegIx → Except FaultKind State} (hk : ∀ i, i ≠ j → k' i = (k i).map g) :
    (regOperand r >>= k') = (regOperand r >>= k).map g := by
  rcases regOperand_cases r with ⟨hr, e⟩ | ⟨-, e⟩ <;> rw [e]
  · exact hk _ fun h => hj (congrArg Fin.val h).symm
  · rfl

section OtherRegister

variable {s : State} {j : RegIx} (v : Byte)

theorem State.sp_writeReg (hj : j ≠ 7) : (s.writeReg j v).sp = s.sp := s.readReg_writeReg_ne hj.symm v

theorem openSlot_writeReg (hj : j ≠ 7) : openSlot (s.writeReg j v) = (openSlot s).map (State.writeReg · j v) :=
  openSlot_commute (g := (State.writeReg · j v)) (State.sp_writeReg v hj) rfl fun w => s.writeReg_comm hj.symm w v

theorem stackPush_writeReg (hj : j ≠ 7) (b : Byte) :
    stackPush b (s.writeReg j v) = (stackPush b s).map (State.writeReg · j v) :=
  bind_commute_map (openSlot_writeReg v hj) fun t => by
    rw [State.sp_writeReg v hj]; rfl

theorem stackPop_writeReg (hj : j ≠ 7) :
    stackPop (s.writeReg j v) = (stackPop s).map (Prod.map id (State.writeReg · j v)) :=
  stackPop_commute (g := (State.writeReg · j v)) (State.sp_writeReg v hj) rfl rfl fun w =>
    s.writeReg_comm hj.symm w v

/-- CALL re-reads the same byte: whether its push lands there depends on SP, pc and STACK_FLOOR (R120). -/
theorem callOperand_writeReg (hj : j ≠ 7) (r : Byte) : callOperand r (s.writeReg j v) = callOperand r s := by
  unfold callOperand State.callAlias State.pushOk
  rw [State.sp_writeReg v hj]
  rfl

theorem perform_writeReg {opc : Byte} {r r' : Except FaultKind State} (hr : r' = r.map (State.writeReg · j v)) :
    perform opc (s.writeReg j v) r' = mapNext (State.writeReg · j v) (perform opc s r) :=
  perform_commute (g := (State.writeReg · j v)) rfl rfl opc (fun _ => rfl) hr

end OtherRegister

/-- An instruction does the same with a register replaced that it neither names nor uses as SP, and keeps it. -/
theorem exec_writeReg {i : Instr} {s : State} {j : RegIx} (v : Byte) (hj : j.val ∉ operandIndices s i)
    (h7 : usesStack i = true → j ≠ 7) :
    exec i (s.writeReg j v) = mapNext (State.writeReg · j v) (exec i s) := by
  cases i with
  | hlt => exact perform_writeReg v (opc := opcHlt) (r := .ok s.halt) rfl
  | ldi r imm =>
    exact perform_writeReg v (regOperand_bind_commute (List.ne_of_not_mem_cons hj) fun i hi => bind_commute fun _ => by
      rw [s.writeReg_comm hi]; rfl)
  | prn r =>
    exact perform_writeReg v (regOperand_bind_commute (List.ne_of_not_mem_cons hj) fun i hi => bind_commute fun _ => by
      rw [s.readReg_writeReg_ne hi]; rfl)
  | push r =>
    exact perform_writeReg v (regOperand_bind_commute (List.ne_of_not_mem_cons hj) fun i hi =>
      bind_commute_map (openSlot_writeReg v (h7 rfl)) fun t => bind_commute fun _ => by
        rw [t.readReg_writeReg_ne hi, State.sp_writeReg v (h7 rfl)]; rfl)
  | pop r =>
    exact perform_writeReg v (regOperand_bind_commute (List.ne_of_not_mem_cons hj) fun i hi =>
      bind_commute_map (stackPop_writeReg v (h7 rfl)) fun (b, t) => bind_commute fun _ =>
        congrArg (fun u => Except.ok (State.setPc u _)) (t.writeReg_comm hi b v))
  | call r =>
    refine perform_writeReg v ?_
    rw [callOperand_writeReg v (h7 rfl)]
    exact regOperand_bind_commute (List.ne_of_not_mem_cons hj) fun i hi =>
      bind_commute_map (stackPush_writeReg v (h7 rfl) _) fun t => by rw [t.readReg_writeReg_ne hi]; rfl
  | ret => exact perform_writeReg v (bind_commute_map (stackPop_writeReg v (h7 rfl)) fun _ => rfl)
  | cmp ra rb =>
    have hb : j.val ≠ rb.toNat := List.ne_of_not_mem_cons (List.not_mem_of_not_mem_cons hj)
    refine perform_writeReg v (regOperand_bind_commute (List.ne_of_not_mem_cons hj) fun i hi =>
      regOperand_bind_commute hb fun i' hi' => bind_commute fun next => ?_)
    rw [aluRequest, s.readReg_writeReg_ne hi, s.readReg_writeReg_ne hi']; rfl
  | jmp r =>
    exact perform_writeReg v (regOperand_bind_commute (List.ne_of_not_mem_cons hj) fun i hi => by
      rw [s.readReg_writeReg_ne hi]; rfl)
  | jeq r =>
    refine perform_writeReg v (regOperand_bind_commute (List.ne_of_not_mem_cons hj) fun i hi => ?_)
    rw [branchTarget, s.readReg_writeReg_ne hi]
    exact bind_commute fun _ => rfl
  | jne r =>
    refine perform_writeReg v (regOperand_bind_commute (List.ne_of_not_mem_cons hj) fun i hi => ?_)
    rw [branchTarget, s.readReg_writeReg_ne hi]
    exact bind_commute fun _ => rfl

/-- Settles O37. -/
theorem unnamedRegisterIsUntouched : Obligations.UnnamedRegisterIsUntouched := fun _ _ _ v => exec_writeReg v

/-! ### The output -/

/-- The state with bytes put in front of its output. -/
def State.prependOut (s : State) (o : List Byte) : State := { s with out := o ++ s.out }

@[simp] theorem State.prependOut_pc (s : State) (o : List Byte) : (s.prependOut o).pc = s.pc := rfl

@[simp] theorem State.memRead_prependOut (s : State) (o : List Byte) (a : Byte) :
    (s.prependOut o).memRead a = s.memRead a := rfl

theorem openSlot_prependOut (s : State) (o : List Byte) :
    openSlot (s.prependOut o) = (openSlot s).map (State.prependOut · o) :=
  openSlot_commute (g := (State.prependOut · o)) rfl rfl fun _ => rfl

theorem stackPush_prependOut (b : Byte) (s : State) (o : List Byte) :
    stackPush b (s.prependOut o) = (stackPush b s).map (State.prependOut · o) :=
  bind_commute_map (openSlot_prependOut s o) fun _ => rfl

theorem stackPop_prependOut (s : State) (o : List Byte) :
    stackPop (s.prependOut o) = (stackPop s).map (Prod.map id (State.prependOut · o)) :=
  stackPop_commute (g := (State.prependOut · o)) rfl rfl rfl fun _ => rfl

/-- Emitting appends behind whatever was put in front. -/
theorem State.emit_prependOut (s : State) (o : List Byte) (v : Byte) :
    (s.prependOut o).emit v = (s.emit v).prependOut o :=
  congrArg (fun out => { s with out := out }) (List.append_assoc o s.out [v])

theorem perform_prependOut {opc : Byte} {s : State} {o : List Byte} {r r' : Except FaultKind State}
    (hr : r' = r.map (State.prependOut · o)) :
    perform opc (s.prependOut o) r' = mapNext (State.prependOut · o) (perform opc s r) :=
  perform_commute (g := (State.prependOut · o)) rfl rfl opc (fun _ => rfl) hr

/-- Every instruction does the same whatever was emitted before, and keeps it in front. -/
theorem exec_prependOut (i : Instr) (s : State) (o : List Byte) :
    exec i (s.prependOut o) = mapNext (State.prependOut · o) (exec i s) := by
  cases i with
  | hlt => exact perform_prependOut (opc := opcHlt) (r := .ok s.halt) rfl
  | ldi => exact perform_prependOut (bind_commute fun _ => bind_commute fun _ => rfl)
  | prn =>
    exact perform_prependOut (bind_commute fun _ => bind_commute fun _ => by
      rw [s.emit_prependOut]; rfl)
  | push =>
    exact perform_prependOut (bind_commute fun _ => bind_commute_map (openSlot_prependOut s o) fun _ =>
      bind_commute fun _ => rfl)
  | pop =>
    exact perform_prependOut (bind_commute fun _ => bind_commute_map (stackPop_prependOut s o) fun _ =>
      bind_commute fun _ => rfl)
  | call => exact perform_prependOut (bind_commute fun _ => bind_commute_map (stackPush_prependOut _ s o) fun _ => rfl)
  | ret => exact perform_prependOut (bind_commute_map (stackPop_prependOut s o) fun _ => rfl)
  | cmp => exact perform_prependOut (bind_commute fun _ => bind_commute fun _ => bind_commute fun _ => rfl)
  | jmp => exact perform_prependOut (bind_commute fun _ => rfl)
  | jeq => exact perform_prependOut (bind_commute fun _ => bind_commute fun _ => rfl)
  | jne => exact perform_prependOut (bind_commute fun _ => bind_commute fun _ => rfl)

/-- Settles O38: the front end does not read the output either. -/
theorem outputOnlyAppended : Obligations.OutputOnlyAppended := by
  intro s o
  show step (s.prependOut o) = mapNext (State.prependOut · o) (step s)
  by_cases hrun : s.run = true
  · by_cases hpc : s.pc.toNat ≤ 0xFD
    · have hs : s.Ready := ⟨hrun, hpc⟩
      rw [step_ready hs, step_ready (s := s.prependOut o) hs, State.prependOut_pc]
      simp only [State.memRead_prependOut]
      cases decode (s.memRead s.pc) (s.memRead (s.pc + 1)) (s.memRead (s.pc + 2)) with
      | error _ => rfl
      | ok i => exact exec_prependOut i s o
    · have hpast : 0xFD < s.pc.toNat := by omega
      rw [step_unfetchable hrun hpast, step_unfetchable (s := s.prependOut o) hrun hpast]
      rfl
  · have hstop : s.run = false := Bool.eq_false_iff.2 hrun
    rw [step_stopped hstop, step_stopped (s := s.prependOut o) hstop]
    rfl

end Sys2Proof.Machine
end

section
/-! SUPPORT. Reset, the load, and what memory as data tells (10_state.md R33; 70_reset_and_hazards.md R180, R181; 20_memory.md
R40). Settles O1, O4, O43 and O54. -/

namespace Sys2Proof.Machine

/-! ### Canonical memories -/

/-- A memory's first entry tells it from every canonical memory that lists only later addresses. -/
theorem Memory.exists_read_ne {lo k : Nat} {w : Byte} {rest m' : Memory} (hm : Memory.wfFrom lo ((k, w) :: rest) = true)
    (hm' : Memory.wfFrom (k + 1) m' = true) : ∃ a < 256, Memory.read ((k, w) :: rest) a ≠ m'.read a := by
  obtain ⟨-, hk, hw, -⟩ := (Memory.wfFrom_cons _ _ _ _).1 hm
  refine ⟨k, hk, ?_⟩
  rw [Memory.read, if_pos rfl, Memory.read_below hm' k.lt_succ_self]
  exact hw

/-- Two memories canonical from one address that read alike inside the address space are the same list. -/
theorem Memory.eq_of_read_eq : ∀ {m m' : Memory} {lo : Nat}, Memory.wfFrom lo m = true → Memory.wfFrom lo m' = true →
    (∀ a : Nat, a < 256 → m.read a = m'.read a) → m = m'
  | [], [], _, _, _, _ => rfl
  | [], (k, w) :: rest, _, _, hm', hread => by
    obtain ⟨a, ha, hne⟩ := Memory.exists_read_ne hm' (m' := []) rfl
    exact absurd (hread a ha).symm hne
  | (k, w) :: rest, [], _, hm, _, hread => by
    obtain ⟨a, ha, hne⟩ := Memory.exists_read_ne hm (m' := []) rfl
    exact absurd (hread a ha) hne
  | (k, w) :: rest, (k', w') :: rest', lo, hm, hm', hread => by
    obtain ⟨-, hk, hw, hrest⟩ := (Memory.wfFrom_cons _ _ _ _).1 hm
    obtain ⟨-, hk', hw', hrest'⟩ := (Memory.wfFrom_cons _ _ _ _).1 hm'
    rcases lt_trichotomy k k' with hlt | rfl | hlt
    · obtain ⟨a, ha, hne⟩ := Memory.exists_read_ne hm ((Memory.wfFrom_cons _ _ _ _).2 ⟨hlt, hk', hw', hrest'⟩)
      exact absurd (hread a ha) hne
    · have hwv : w = w' := by simpa [Memory.read] using hread k hk
      have htail : rest = rest' := Memory.eq_of_read_eq hrest hrest' fun a ha => by
        rcases Nat.lt_or_ge k a with hka | hka
        · simpa [Memory.read, hka.ne] using hread a ha
        · rw [Memory.read_below hrest (by omega), Memory.read_below hrest' (by omega)]
      rw [hwv, htail]
    · obtain ⟨a, ha, hne⟩ := Memory.exists_read_ne hm' ((Memory.wfFrom_cons _ _ _ _).2 ⟨hlt, hk, hw, hrest⟩)
      exact absurd (hread a ha).symm hne

/-- Settles O43. -/
theorem canonicalMemoryIsUnique : Obligations.CanonicalMemoryIsUnique := fun _ _ => Memory.eq_of_read_eq

/-! ### Reset -/

/-- Settles O1: every value read off the reset state. -/
theorem resetValues : Obligations.ResetValues :=
  ⟨fun _ => rfl, by decide, rfl, rfl, rfl, rfl, rfl, rfl, rfl, rfl, rfl⟩

/-- The reset event leaves a state that meets the invariant where STACK_FLOOR is legal. -/
theorem State.applyReset_inv {s : State} (hfloor : s.stackFloor.toNat < 0xF4) : s.applyReset.Inv where
  memWf := rfl
  flOneHot := .inl rfl
  floorLow := hfloor
  recordClear := fun _ => ⟨rfl, rfl⟩
  recordSet := fun h => absurd rfl h

/-! ### The load -/

/-- The loader writes memory and nothing else (R181). -/
theorem State.loadFrom_eq : ∀ (s : State) (k : Nat) (image : List Byte),
    s.loadFrom k image = { s with mem := (s.loadFrom k image).mem }
  | _, _, [] => rfl
  | s, k, v :: rest => State.loadFrom_eq { s with mem := s.mem.write k v } (k + 1) rest

/-- A load inside the address space keeps the canonical form. -/
theorem State.loadFrom_wf : ∀ {s : State} {k : Nat} {image : List Byte}, s.mem.wf = true → k + image.length ≤ 256 →
    (s.loadFrom k image).mem.wf = true
  | _, _, [], hm, _ => hm
  | s, k, v :: rest, hm, hlen => by
    rw [List.length_cons] at hlen
    exact State.loadFrom_wf (s := { s with mem := s.mem.write k v }) (Memory.wf_write hm (by omega) v) (by omega)

/-- An invariant that held before a load inside the address space holds after it. -/
theorem State.Inv.loadFrom {s : State} (hs : s.Inv) {k : Nat} {image : List Byte} (hlen : k + image.length ≤ 256) :
    (s.loadFrom k image).Inv := by
  have hm := State.loadFrom_wf hs.memWf hlen
  rw [State.loadFrom_eq]
  exact ⟨hm, hs.flOneHot, hs.floorLow, hs.recordClear, hs.recordSet⟩

/-- Settles O4: the sequence releases the loaded reset state; an image that does not fit ends it before. -/
theorem bootLoadsProgram : Obligations.BootLoadsProgram := by
  intro s image
  rcases boot_cases s (some image) with ⟨_, ⟨⟩, hlen, hboot⟩ | ⟨hlong, hboot⟩
  · have hlen' : 0 + image.length ≤ 256 := (Nat.zero_add _).le.trans hlen
    refine ⟨fun _ => ⟨_, hboot, by rw [hboot]; rfl, fun a => ?_, s.applyReset.loadFrom_eq 0 image, fun hfloor => ?_⟩,
      fun hlong => absurd hlen hlong.not_ge⟩
    · exact State.loadFrom_read (s := s.applyReset) rfl hlen' a.toNat.zero_le
    · exact (State.applyReset_inv hfloor).loadFrom hlen'
  · exact ⟨fun hlen => absurd hlen (hlong image rfl).not_ge, fun _ => ⟨_, hboot⟩⟩

/-- Settles O54: what the sequence answers when no image fits. -/
theorem loadFailureLeavesResetState : Obligations.LoadFailureLeavesResetState := by
  intro s offered hoffer
  rcases boot_cases s offered with ⟨image, himage, hlen, -⟩ | ⟨-, hboot⟩
  · exact absurd hlen (hoffer image himage).not_ge
  · rw [hboot]
    exact ⟨rfl, rfl, rfl⟩

end Sys2Proof.Machine
end

section
/-! SUPPORT. The pc after each instruction that completes (10_state.md R26), and pairs of instructions run one after the
other. Settles O45, O46 and O48 to O52. -/

namespace Sys2Proof.Machine

/-! ### Byte arithmetic that does not wrap -/

/-- A two-byte advance from where an instruction can be fetched, as a number. -/
theorem toNat_add_two {p : Byte} (h : p.toNat ≤ 0xFD) : (p + 2).toNat = p.toNat + 2 := by bv_omega

/-- A three-byte advance that fits, as a number. -/
theorem toNat_add_three {p : Byte} (h : p.toNat ≤ 0xFC) : (p + 3).toNat = p.toNat + 3 := by bv_omega

/-- SP after a legal push may pop. -/
theorem State.CanPush.canPop {s t : State} (hs : s.CanPush) (hsp : t.regs[7] = s.regs[7] - 1)
    (hfloor : t.stackFloor = s.stackFloor) : t.CanPop := by
  have hdec : (s.regs[7] - 1).toNat + 1 = s.regs[7].toNat := toNat_sp_sub_one hs
  obtain ⟨hlow, hhigh⟩ := hs
  rw [State.CanPop, hsp, hfloor]
  omega

/-! ### The pc -/

/-- An instruction that completes had its own effect, in a state where it could be fetched. -/
theorem Completes.effect {i : Instr} {s t : State} (h : Completes i s t) : s.pc.toNat ≤ 0xFD ∧ Effect s t i := by
  obtain ⟨⟨hrun, hpc⟩, -, hexec, hclear⟩ := h
  rcases exec_outcome hexec with ⟨hstop, -⟩ | ⟨-, c, ir, hlegal, rfl⟩ | ⟨-, heff⟩
  · simp [hrun] at hstop
  · exact absurd hclear hlegal.cause_ne.1
  · exact ⟨hpc, heff⟩

/-- Settles O46, off each instruction's effect. -/
theorem pcAdvanceTable : Obligations.PcAdvanceTable := by
  intro s t
  refine ⟨fun h => ?_, fun r imm h => ?_, fun r h => ?_, fun r h => ?_, fun r h => ?_, fun r h => ?_, fun h => ?_,
    fun ra rb h => ?_, fun r h => ?_, fun r h => ?_, fun r h => ?_⟩
  · obtain ⟨-, rfl⟩ := h.effect
    rfl
  · obtain ⟨-, -, hpc, rfl⟩ := h.effect
    exact ⟨toNat_add_three hpc, rfl⟩
  · obtain ⟨hpc, -, rfl⟩ := h.effect
    exact ⟨toNat_add_two hpc, rfl⟩
  · obtain ⟨hpc, -, -, rfl⟩ := h.effect
    exact ⟨toNat_add_two hpc, rfl⟩
  · obtain ⟨hpc, -, -, rfl⟩ := h.effect
    exact ⟨toNat_add_two hpc, rfl⟩
  · obtain ⟨-, hr, -, rfl⟩ := h.effect
    exact ⟨⟨_, hr⟩, rfl, rfl⟩
  · obtain ⟨-, -, rfl⟩ := h.effect
    rfl
  · obtain ⟨-, -, -, hpc, rfl⟩ := h.effect
    exact ⟨toNat_add_three hpc, rfl⟩
  · obtain ⟨-, hr, rfl⟩ := h.effect
    exact ⟨⟨_, hr⟩, rfl, rfl⟩
  · obtain ⟨hpc, hr, rfl⟩ := h.effect
    refine ⟨fun htaken => ⟨⟨_, hr⟩, rfl, if_pos htaken⟩, fun hnot => ⟨?_, rfl⟩⟩
    rw [State.setPc_pc, State.flagE, hnot]
    exact toNat_add_two hpc
  · obtain ⟨hpc, hr, rfl⟩ := h.effect
    refine ⟨fun htaken => ⟨⟨_, hr⟩, rfl, if_pos htaken⟩, fun hnot => ⟨?_, rfl⟩⟩
    rw [State.setPc_pc, State.flagE, hnot]
    exact toNat_add_two hpc

/-- Settles O52. -/
theorem transferToTopFaultsAtNextFetch : Obligations.TransferToTopFaultsAtNextFetch := fun s r hr hs htop =>
  ⟨_, jmpResult s r hr hs, rfl, step_unfetchable hs.1 htop⟩

/-! ### LDI then PRN -/

/-- Settles O48: each step runs the instruction its bytes decode to. -/
theorem ldiThenPrn : Obligations.LdiThenPrn := by
  intro s r v hr hrun hpc h0 h1 h2 h3 h4
  have hs : s.Ready := ⟨hrun, by omega⟩
  have hexec := ldiResult s r v hr hs (by omega)
  generalize ht : { s with regs := s.regs.set r.toNat v hr, pc := s.pc + 3 } = t at hexec
  have hmem (a : Byte) : t.memRead a = s.memRead a := exec_memRead hexec nofun nofun a
  have hpct : t.pc = s.pc + 3 := by rw [← ht]
  have hreg : t.regs[r.toNat] = v := by rw [← ht]; exact Vector.getElem_set_self hr
  have hpct' : t.pc.toNat = s.pc.toNat + 3 := by rw [hpct]; exact toNat_add_three (by omega)
  have hts : t.Ready := ⟨by rw [← ht]; exact hrun, by omega⟩
  have hldi : step s = .next t := by
    rw [stepRunsDecodedInstruction s (.ldi r v) hs (by rw [h0, h1, h2]; rfl), hexec]
  have hnext : t.pc + 1 = s.pc + 4 := by rw [hpct, BitVec.add_assoc]; rfl
  have hprn : step t = exec (.prn r) t :=
    stepRunsDecodedInstruction t (.prn r) hts (by rw [hnext, hmem, hmem, hpct, h3, h4]; rfl)
  refine ⟨t, _, hldi, hprn.trans (prnResult t r hr hts), ?_, ?_⟩
  · show t.out ++ [t.regs[r.toNat]] = s.out ++ [v]
    rw [hreg, exec_out hexec nofun]
  · show (t.pc + 2).toNat = s.pc.toNat + 5
    rw [toNat_add_two (by omega), hpct']

/-! ### Stack pairs -/

/-- A legal PUSH of R0 to R6, in what a later instruction sees of it. -/
theorem exec_push_value {s : State} {r : Byte} (hr : r.toNat < 7) (hs : s.Ready) (hpush : s.CanPush)
    (hm : s.mem.wf = true) :
    ∃ t, exec (.push r) s = .next t ∧ t.run = true ∧ t.pc = s.pc + 2 ∧ t.stackFloor = s.stackFloor ∧
      t.regs[7] = s.regs[7] - 1 ∧ t.memRead (s.regs[7] - 1) = s.regs[r.toNat] := by
  have hexec := pushResult s r (by omega) hs hpush
  rw [if_neg hr.ne] at hexec
  exact ⟨_, hexec, hs.1, rfl, rfl, Vector.getElem_set_self (by decide), State.memRead_memWrite_same hm _ _⟩

/-- What a fetch that succeeds has read (R81). -/
theorem fetch_eq_ok {s : State} {f : Fetched} (h : fetch s = .ok f) :
    f.opc = s.memRead s.pc ∧ f.a = s.memRead (s.pc + 1) ∧ f.b = s.memRead (s.pc + 2) := by
  by_cases hpc : s.pc.toNat ≤ 0xFD
  · cases h.symm.trans (fetch_ok hpc)
    exact ⟨rfl, rfl, rfl⟩
  · cases h.symm.trans (fetch_error (by omega))

/-- Settles O45: a fetch reads the cell the push wrote. -/
theorem pushedByteIsFetched : Obligations.PushedByteIsFetched := by
  intro s r hr hr7 hs hpush hm
  obtain ⟨t, hexec, -, -, -, -, htop⟩ := exec_push_value (r := r) (by omega) hs hpush hm
  refine ⟨t, hexec, fun f hf => ?_⟩
  obtain ⟨hopc, ha, hb⟩ := fetch_eq_ok hf
  exact ⟨fun e => by rw [hopc, ← e, htop], fun e => by rw [ha, ← e, htop], fun e => by rw [hb, ← e, htop]⟩

/-- Settles O49: the POP finds SP and the cell as the PUSH left them. -/
theorem pushThenPop : Obligations.PushThenPop := by
  intro s r r' hr hr' hrun hpc hpush hm
  obtain ⟨t, hexec, htrun, htpc, hfloor, hsp, htop⟩ := exec_push_value hr ⟨hrun, by omega⟩ hpush hm
  have hts : t.Ready := ⟨htrun, by rw [htpc, toNat_add_two (by omega)]; omega⟩
  have hr8 : r'.toNat < 8 := by omega
  refine ⟨t, _, hexec, popResult t r' hr8 hts (hpush.canPop hsp hfloor), ?_, ?_, htop⟩
  · show ((t.regs.set 7 (t.regs[7] + 1)).set r'.toNat (t.memRead t.regs[7]) hr8)[7] = s.regs[7]
    rw [Vector.getElem_set_ne _ _ hr'.ne, Vector.getElem_set_self, hsp, BitVec.sub_add_cancel]
  · show ((t.regs.set 7 (t.regs[7] + 1)).set r'.toNat (t.memRead t.regs[7]) hr8)[r'.toNat] = s.regs[r.toNat]
    rw [Vector.getElem_set_self, hsp, htop]

/-- A legal CALL, in what a later RET needs of it. -/
theorem exec_call_top {s : State} {r : Byte} (hr : (s.reRead r).toNat < 8) (hs : s.Ready) (hpush : s.CanPush)
    (hm : s.mem.wf = true) :
    ∃ t, exec (.call r) s = .next t ∧ t.stackFloor = s.stackFloor ∧ t.regs[7] = s.regs[7] - 1 ∧
      t.memRead (s.regs[7] - 1) = s.pc + 2 :=
  ⟨_, callResult s r ⟨_, hr⟩ hs hpush rfl, rfl, Vector.getElem_set_self (by decide),
    State.memRead_memWrite_same hm _ _⟩

/-- Settles O50: the RET pops the return address the CALL pushed. -/
theorem callThenReturn : Obligations.CallThenReturn := by
  intro s r hs hpush hr hm
  obtain ⟨t, hexec, hfloor, hsp, htop⟩ := exec_call_top hr hs hpush hm
  refine ⟨t, hexec, fun u hu hufloor husp hutop => ?_⟩
  have hpop : u.CanPop := hpush.canPop (husp.trans hsp) (hufloor.trans hfloor)
  refine ⟨_, retResult u hu hpop, ?_, ?_⟩
  · show (u.memRead u.regs[7]).toNat = s.pc.toNat + 2
    rw [hutop, hsp, htop, toNat_add_two hs.2]
  · show (u.regs.set 7 (u.regs[7] + 1))[7] = s.regs[7]
    rw [Vector.getElem_set_self, husp, hsp, BitVec.sub_add_cancel]

/-! ### CMP then a branch -/

/-- Bit 0 of AluCompare's code tells equality (R28, R133). -/
theorem aluCompare_bit_zero (x y : Byte) : (aluCompare x y).getLsbD 0 = decide (x = y) := by
  unfold aluCompare
  split_ifs with hlt hgt
  · exact (decide_eq_false fun h => hlt.ne (congrArg _ h)).symm
  · exact (decide_eq_false fun h => hgt.ne (congrArg _ h.symm)).symm
  · exact (decide_eq_true (BitVec.eq_of_toNat_eq (by omega))).symm

/-- Settles O51: the branch reads bit 0 of the code the CMP left. -/
theorem compareThenBranch : Obligations.CompareThenBranch := by
  intro s ra rb r ha hb hr hrun hpc
  obtain ⟨t, hexec, htrun, hregs, hpct, hbit⟩ : ∃ t, exec (.cmp ra rb) s = .next t ∧ t.run = true ∧ t.regs = s.regs ∧
      t.pc = s.pc + 3 ∧ t.fl.getLsbD 0 = decide (s.regs[ra.toNat] = s.regs[rb.toNat]) :=
    ⟨_, cmpResult s ra rb ha hb ⟨hrun, by omega⟩ (by omega), hrun, rfl, rfl, aluCompare_bit_zero _ _⟩
  have hts : t.Ready := ⟨htrun, by rw [hpct, toNat_add_three (by omega)]; omega⟩
  have hnext : t.pc + 2 = s.pc + 5 := by rw [hpct, BitVec.add_assoc]; rfl
  refine ⟨t, hexec, fun heq => ?_, fun hne => ?_⟩
  · rw [decide_eq_true heq] at hbit
    rw [jeqResult t r hr hts, jneResult t r hr hts, hbit, hregs, hnext]
    exact ⟨rfl, rfl⟩
  · rw [decide_eq_false hne] at hbit
    rw [jeqResult t r hr hts, jneResult t r hr hts, hbit, hregs, hnext]
    exact ⟨rfl, rfl⟩

end Sys2Proof.Machine
end
